-- ==== Sys2Proof/Word.lean ====
section
/-! DEFINITION. The word types of the CHIP-8 core (`spec/00_scope.md` R6, R7; `spec/10_state.md` R21 to R28).
Every value of the machine is unsigned (R6): there is no sign extension anywhere. -/

namespace Sys2Proof

/-- An 8-bit value: a general register, a memory byte, a timer, an immediate `kk`. -/
abbrev Byte := BitVec 8

/-- A 16-bit value: `I`, `pc`, a return address, an opcode, the sixteen key flags. -/
abbrev Word := BitVec 16

/-- A 12-bit immediate address `nnn` (R7). -/
abbrev Addr := BitVec 12

/-- A 4-bit field of an opcode (R6). -/
abbrev Nibble := BitVec 4

/-- The index of a general register, V0 to VF (R21). -/
abbrev Reg := Fin 16

/-- `VF`, the register that six instructions also write as a flag (R22). -/
abbrev VF : Reg := 15

/-- `zext_16` (R8). -/
abbrev zext16 {n : Nat} (v : BitVec n) : Word := v.setWidth 16

end Sys2Proof
end

