-- ==== Sys2Proof/Syntax.lean ====
section
/-! DEFINITION. The instructions: one constructor for each mnemonic of `spec/opcode_table.json`, in the table's order
(`spec/30_encoding.md` R82, R84). Operands are register indices, the immediate byte, the immediate address and the sprite
height, already cut out of the opcode (R72). -/

namespace Sys2Proof

/-- The 34 named instructions and the no-op handler (`spec/00_scope.md` R1). The 67 rows `NOP` of the table are one
instruction; it has no canonical encoding (`spec/40_cycle_and_dispatch.md` R107), so it keeps the word that selected it,
which has no effect. -/
inductive Instr where
  | cls  -- zero the framebuffer (R170)
  | ret  -- return from subroutine (R120)
  | jp (nnn : Addr)  -- jump (R121)
  | call (nnn : Addr)  -- call subroutine (R122)
  | seByte (x : Reg) (kk : Byte)  -- skip if equal, immediate (R123)
  | sneByte (x : Reg) (kk : Byte)  -- skip if not equal, immediate (R124)
  | seReg (x y : Reg)  -- skip if registers equal (R125)
  | ldByte (x : Reg) (kk : Byte)  -- load immediate (R140)
  | addByte (x : Reg) (kk : Byte)  -- add immediate (R141)
  | ldReg (x y : Reg)  -- register move (R142)
  | orReg (x y : Reg)  -- bitwise or (R143)
  | andReg (x y : Reg)  -- bitwise and (R144)
  | xorReg (x y : Reg)  -- bitwise exclusive or (R145)
  | addReg (x y : Reg)  -- add with carry out (R146)
  | subReg (x y : Reg)  -- subtract, Vx - Vy (R147)
  | shr (x : Reg)  -- shift right by one (R148)
  | subnReg (x y : Reg)  -- reverse subtract, Vy - Vx (R149)
  | shl (x : Reg)  -- shift left by one (R150)
  | sneReg (x y : Reg)  -- skip if registers differ (R126)
  | ldI (nnn : Addr)  -- load index register (R160)
  | jpV0 (nnn : Addr)  -- jump with offset V0 (R127)
  | rnd (x : Reg) (kk : Byte)  -- random byte under a mask (R151)
  | drw (x y : Reg) (n : Nibble)  -- draw sprite (R171)
  | skp (x : Reg)  -- skip if key pressed (R180)
  | sknp (x : Reg)  -- skip if key not pressed (R181)
  | ldVxDT (x : Reg)  -- read delay timer (R182)
  | ldVxK (x : Reg)  -- wait for a key (R183)
  | ldDTVx (x : Reg)  -- set delay timer (R184)
  | ldSTVx (x : Reg)  -- set sound timer (R185)
  | addI (x : Reg)  -- add register to index (R161)
  | ldF (x : Reg)  -- address of glyph (R162)
  | ldB (x : Reg)  -- store decimal digits (R163)
  | stRegs (x : Reg)  -- store registers V0 to Vx (R164)
  | ldRegs (x : Reg)  -- load registers V0 to Vx (R165)
  | nop (w : Word)  -- the no-op handler; `w` is the unmapped word that selected it (R107)
  deriving DecidableEq, Repr

/-- The mnemonics of `spec/opcode_table.json`, letter for letter. -/
inductive Mnemonic where
  | CLS
  | RET
  | JP_addr
  | CALL_addr
  | SE_Vx__byte
  | SNE_Vx__byte
  | SE_Vx__Vy
  | LD_Vx__byte
  | ADD_Vx__byte
  | LD_Vx__Vy
  | OR_Vx__Vy
  | AND_Vx__Vy
  | XOR_Vx__Vy
  | ADD_Vx__Vy
  | SUB_Vx__Vy
  | SHR_Vx
  | SUBN_Vx__Vy
  | SHL_Vx
  | SNE_Vx__Vy
  | LD_I__addr
  | JP_V0__addr
  | RND_Vx__byte
  | DRW_Vx__Vy__n
  | SKP_Vx
  | SKNP_Vx
  | LD_Vx__DT
  | LD_Vx__K
  | LD_DT__Vx
  | LD_ST__Vx
  | ADD_I__Vx
  | LD_F__Vx
  | LD_B__Vx
  | LD__I___Vx
  | LD_Vx___I
  | NOP
  deriving DecidableEq, Repr

/-- The mnemonic of an instruction. -/
def Instr.mnemonic : Instr → Mnemonic
  | .cls => .CLS
  | .ret => .RET
  | .jp _ => .JP_addr
  | .call _ => .CALL_addr
  | .seByte _ _ => .SE_Vx__byte
  | .sneByte _ _ => .SNE_Vx__byte
  | .seReg _ _ => .SE_Vx__Vy
  | .ldByte _ _ => .LD_Vx__byte
  | .addByte _ _ => .ADD_Vx__byte
  | .ldReg _ _ => .LD_Vx__Vy
  | .orReg _ _ => .OR_Vx__Vy
  | .andReg _ _ => .AND_Vx__Vy
  | .xorReg _ _ => .XOR_Vx__Vy
  | .addReg _ _ => .ADD_Vx__Vy
  | .subReg _ _ => .SUB_Vx__Vy
  | .shr _ => .SHR_Vx
  | .subnReg _ _ => .SUBN_Vx__Vy
  | .shl _ => .SHL_Vx
  | .sneReg _ _ => .SNE_Vx__Vy
  | .ldI _ => .LD_I__addr
  | .jpV0 _ => .JP_V0__addr
  | .rnd _ _ => .RND_Vx__byte
  | .drw _ _ _ => .DRW_Vx__Vy__n
  | .skp _ => .SKP_Vx
  | .sknp _ => .SKNP_Vx
  | .ldVxDT _ => .LD_Vx__DT
  | .ldVxK _ => .LD_Vx__K
  | .ldDTVx _ => .LD_DT__Vx
  | .ldSTVx _ => .LD_ST__Vx
  | .addI _ => .ADD_I__Vx
  | .ldF _ => .LD_F__Vx
  | .ldB _ => .LD_B__Vx
  | .stRegs _ => .LD__I___Vx
  | .ldRegs _ => .LD_Vx___I
  | .nop _ => .NOP

end Sys2Proof
end

