-- ==== Sys2Proof/Decode.lean ====
section
/-! DEFINITION. The decoder and, after it, the encoder (`spec/30_encoding.md` R70 to R81; `spec/40_cycle_and_dispatch.md`
R103). The numeric keys are those of R74 to R78; all but `6xkk`, `8xy4` and `00E0` are marked there as general knowledge
(log 5). -/

namespace Sys2Proof

/-! ## Fields (R7, R72) -/

/-- `op = opcode[15:12]`, the first-level dispatch key. -/
def opField (w : Word) : Nibble := w.extractLsb' 12 4

/-- `x = opcode[11:8]`. -/
def xField (w : Word) : Reg := (w.extractLsb' 8 4).toFin

/-- `y = opcode[7:4]`. -/
def yField (w : Word) : Reg := (w.extractLsb' 4 4).toFin

/-- `n = opcode[3:0]`. -/
def nField (w : Word) : Nibble := w.extractLsb' 0 4

/-- `kk = opcode[7:0]`. -/
def kkField (w : Word) : Byte := w.extractLsb' 0 8

/-- `nnn = opcode[11:0]`. -/
def nnnField (w : Word) : Addr := w.extractLsb' 0 12

/-! ## The two-stage dispatch (R73, R103) -/

/-- Family 0x0, keyed by the low nibble (R75). -/
def decodeFamily0 (w : Word) : Instr :=
  match (nField w).toNat with
  | 0x0 => .cls
  | 0xE => .ret
  | _ => .nop w

/-- Family 0x8, keyed by the low nibble (R76). -/
def decodeFamily8 (w : Word) : Instr :=
  match (nField w).toNat with
  | 0x0 => .ldReg (xField w) (yField w)
  | 0x1 => .orReg (xField w) (yField w)
  | 0x2 => .andReg (xField w) (yField w)
  | 0x3 => .xorReg (xField w) (yField w)
  | 0x4 => .addReg (xField w) (yField w)
  | 0x5 => .subReg (xField w) (yField w)
  | 0x6 => .shr (xField w)
  | 0x7 => .subnReg (xField w) (yField w)
  | 0xE => .shl (xField w)
  | _ => .nop w

/-- Family 0xE, keyed by the low nibble (R77). -/
def decodeFamilyE (w : Word) : Instr :=
  match (nField w).toNat with
  | 0x1 => .sknp (xField w)
  | 0xE => .skp (xField w)
  | _ => .nop w

/-- Family 0xF, keyed by the low byte (R78). -/
def decodeFamilyF (w : Word) : Instr :=
  match (kkField w).toNat with
  | 0x07 => .ldVxDT (xField w)
  | 0x0A => .ldVxK (xField w)
  | 0x15 => .ldDTVx (xField w)
  | 0x18 => .ldSTVx (xField w)
  | 0x1E => .addI (xField w)
  | 0x29 => .ldF (xField w)
  | 0x33 => .ldB (xField w)
  | 0x55 => .stRegs (xField w)
  | 0x65 => .ldRegs (xField w)
  | _ => .nop w

/-- The first stage: the top nibble (R73, R74). Total: no word is illegal (R80). -/
def decodeWord (w : Word) : Instr :=
  match (opField w).toNat with
  | 0x0 => decodeFamily0 w
  | 0x1 => .jp (nnnField w)
  | 0x2 => .call (nnnField w)
  | 0x3 => .seByte (xField w) (kkField w)
  | 0x4 => .sneByte (xField w) (kkField w)
  | 0x5 => .seReg (xField w) (yField w)
  | 0x6 => .ldByte (xField w) (kkField w)
  | 0x7 => .addByte (xField w) (kkField w)
  | 0x8 => decodeFamily8 w
  | 0x9 => .sneReg (xField w) (yField w)
  | 0xA => .ldI (nnnField w)
  | 0xB => .jpV0 (nnnField w)
  | 0xC => .rnd (xField w) (kkField w)
  | 0xD => .drw (xField w) (yField w) (nField w)
  | 0xE => decodeFamilyE w
  | _ => decodeFamilyF w

/-- The only way decoding bytes can fail: there are fewer than the two bytes of an instruction (R70). -/
inductive DecodeError where
  | truncated
  deriving DecidableEq, Repr

/-- Two bytes to a word, the high byte at the lower address (`spec/20_memory.md` R56). -/
def wordOfBytes (hi lo : Byte) : Word := hi ++ lo

/-- The two bytes of a word in memory order (R56). -/
def bytesOfWord (w : Word) : List Byte := [w.extractLsb' 8 8, w.extractLsb' 0 8]

/-- Decode the first instruction of a list of bytes and return it with the rest. -/
def decode : List Byte → Except DecodeError (Instr × List Byte)
  | hi :: lo :: rest => .ok (decodeWord (wordOfBytes hi lo), rest)
  | _ => .error .truncated

/-- What the decoder reads from a row of `spec/opcode_table.json`: the word is laid out as the hardware stores it, high
byte first, and given to `decode`. Bits above `nbits` are zero. -/
def decodeTableWord (nbits w : Nat) : Option Instr :=
  match decode (bytesOfWord (BitVec.ofNat 16 (w % 2 ^ nbits))) with
  | .ok (i, _) => some i
  | .error _ => none

/-! ## The unmapped words (R79) -/

/-- The words of the no-op handler, listed as R79 lists them. -/
def unmappedWord (w : Word) : Bool :=
  match (opField w).toNat with
  | 0x0 => !([0x0, 0xE].contains (nField w).toNat)
  | 0x8 => [0x8, 0x9, 0xA, 0xB, 0xC, 0xD, 0xF].contains (nField w).toNat
  | 0xE => !([0x1, 0xE].contains (nField w).toNat)
  | 0xF => !([0x07, 0x0A, 0x15, 0x18, 0x1E, 0x29, 0x33, 0x55, 0x65].contains (kkField w).toNat)
  | _ => false

/-! ## The encoder: the canonical words of R74 to R78, R81 -/

/-- A register index as the four bits of its field. -/
def regBits (r : Reg) : Nibble := BitVec.ofFin r

/-- Format `NNN` (R71). -/
def wordNNN (op : Nibble) (nnn : Addr) : Word := op ++ nnn

/-- Format `XKK`, and formats `F0`, `FE` and `FF` with the low byte fixed (R71). -/
def wordXKK (op : Nibble) (x : Reg) (kk : Byte) : Word := op ++ regBits x ++ kk

/-- Formats `XY`, `XYN` and `F8` (R71). -/
def wordXYN (op : Nibble) (x y : Reg) (n : Nibble) : Word := op ++ regBits x ++ regBits y ++ n

/-- The word of an instruction: its canonical encoding (R81); `SHR` and `SHL` have one for every `y`, and the encoder
takes `y = 0`, as for the ignored low nibble of `5xy0` and `9xy0` (log 6); a no-op keeps its word. -/
def encode : Instr → Word
  | .cls => 0x00E0
  | .ret => 0x00EE
  | .jp nnn => wordNNN 0x1 nnn
  | .call nnn => wordNNN 0x2 nnn
  | .seByte x kk => wordXKK 0x3 x kk
  | .sneByte x kk => wordXKK 0x4 x kk
  | .seReg x y => wordXYN 0x5 x y 0x0
  | .ldByte x kk => wordXKK 0x6 x kk
  | .addByte x kk => wordXKK 0x7 x kk
  | .ldReg x y => wordXYN 0x8 x y 0x0
  | .orReg x y => wordXYN 0x8 x y 0x1
  | .andReg x y => wordXYN 0x8 x y 0x2
  | .xorReg x y => wordXYN 0x8 x y 0x3
  | .addReg x y => wordXYN 0x8 x y 0x4
  | .subReg x y => wordXYN 0x8 x y 0x5
  | .shr x => wordXYN 0x8 x 0 0x6
  | .subnReg x y => wordXYN 0x8 x y 0x7
  | .shl x => wordXYN 0x8 x 0 0xE
  | .sneReg x y => wordXYN 0x9 x y 0x0
  | .ldI nnn => wordNNN 0xA nnn
  | .jpV0 nnn => wordNNN 0xB nnn
  | .rnd x kk => wordXKK 0xC x kk
  | .drw x y n => wordXYN 0xD x y n
  | .skp x => wordXKK 0xE x 0x9E
  | .sknp x => wordXKK 0xE x 0xA1
  | .ldVxDT x => wordXKK 0xF x 0x07
  | .ldVxK x => wordXKK 0xF x 0x0A
  | .ldDTVx x => wordXKK 0xF x 0x15
  | .ldSTVx x => wordXKK 0xF x 0x18
  | .addI x => wordXKK 0xF x 0x1E
  | .ldF x => wordXKK 0xF x 0x29
  | .ldB x => wordXKK 0xF x 0x33
  | .stRegs x => wordXKK 0xF x 0x55
  | .ldRegs x => wordXKK 0xF x 0x65
  | .nop w => w

/-- The bytes of an instruction, in memory order. -/
def encodeBytes (i : Instr) : List Byte := bytesOfWord (encode i)

/-! ## The opcode table (`spec/opcode_table.json`), row by row -/

/-- One row of the table: a word `w` belongs to it when `w AND mask = key`. -/
structure OpcodeRow where
  name : Mnemonic
  mask : Word
  key : Word
  deriving DecidableEq, Repr

/-- A word belongs to a row (`spec/INDEX.md`, conventions of the table). -/
def OpcodeRow.matches (r : OpcodeRow) (w : Word) : Bool := w &&& r.mask == r.key

/-- The 34 named instructions. -/
def opcodeRowsNamed : List OpcodeRow :=
  [⟨.CLS, 0xF00F, 0x0000⟩, ⟨.RET, 0xF00F, 0x000E⟩, ⟨.JP_addr, 0xF000, 0x1000⟩,
   ⟨.CALL_addr, 0xF000, 0x2000⟩, ⟨.SE_Vx__byte, 0xF000, 0x3000⟩, ⟨.SNE_Vx__byte, 0xF000, 0x4000⟩,
   ⟨.SE_Vx__Vy, 0xF000, 0x5000⟩, ⟨.LD_Vx__byte, 0xF000, 0x6000⟩, ⟨.ADD_Vx__byte, 0xF000, 0x7000⟩,
   ⟨.LD_Vx__Vy, 0xF00F, 0x8000⟩, ⟨.OR_Vx__Vy, 0xF00F, 0x8001⟩, ⟨.AND_Vx__Vy, 0xF00F, 0x8002⟩] ++
  [⟨.XOR_Vx__Vy, 0xF00F, 0x8003⟩, ⟨.ADD_Vx__Vy, 0xF00F, 0x8004⟩, ⟨.SUB_Vx__Vy, 0xF00F, 0x8005⟩,
   ⟨.SHR_Vx, 0xF00F, 0x8006⟩, ⟨.SUBN_Vx__Vy, 0xF00F, 0x8007⟩, ⟨.SHL_Vx, 0xF00F, 0x800E⟩,
   ⟨.SNE_Vx__Vy, 0xF000, 0x9000⟩, ⟨.LD_I__addr, 0xF000, 0xA000⟩, ⟨.JP_V0__addr, 0xF000, 0xB000⟩,
   ⟨.RND_Vx__byte, 0xF000, 0xC000⟩, ⟨.DRW_Vx__Vy__n, 0xF000, 0xD000⟩, ⟨.SKP_Vx, 0xF00F, 0xE00E⟩] ++
  [⟨.SKNP_Vx, 0xF00F, 0xE001⟩, ⟨.LD_Vx__DT, 0xF0FF, 0xF007⟩, ⟨.LD_Vx__K, 0xF0FF, 0xF00A⟩,
   ⟨.LD_DT__Vx, 0xF0FF, 0xF015⟩, ⟨.LD_ST__Vx, 0xF0FF, 0xF018⟩, ⟨.ADD_I__Vx, 0xF0FF, 0xF01E⟩,
   ⟨.LD_F__Vx, 0xF0FF, 0xF029⟩, ⟨.LD_B__Vx, 0xF0FF, 0xF033⟩, ⟨.LD__I___Vx, 0xF0FF, 0xF055⟩,
   ⟨.LD_Vx___I, 0xF0FF, 0xF065⟩]

/-- The unmapped keys of family 0x0. -/
def opcodeRowsNop0 : List OpcodeRow :=
  [⟨.NOP, 0xF00F, 0x0001⟩, ⟨.NOP, 0xF00F, 0x0002⟩, ⟨.NOP, 0xF00F, 0x0003⟩,
   ⟨.NOP, 0xF00F, 0x0004⟩, ⟨.NOP, 0xF00F, 0x0005⟩, ⟨.NOP, 0xF00F, 0x0006⟩,
   ⟨.NOP, 0xF00F, 0x0007⟩, ⟨.NOP, 0xF00F, 0x0008⟩, ⟨.NOP, 0xF00F, 0x0009⟩,
   ⟨.NOP, 0xF00F, 0x000A⟩, ⟨.NOP, 0xF00F, 0x000B⟩, ⟨.NOP, 0xF00F, 0x000C⟩] ++
  [⟨.NOP, 0xF00F, 0x000D⟩, ⟨.NOP, 0xF00F, 0x000F⟩]

/-- The unmapped keys of family 0x8. -/
def opcodeRowsNop8 : List OpcodeRow :=
  [⟨.NOP, 0xF00F, 0x8008⟩, ⟨.NOP, 0xF00F, 0x8009⟩, ⟨.NOP, 0xF00F, 0x800A⟩,
   ⟨.NOP, 0xF00F, 0x800B⟩, ⟨.NOP, 0xF00F, 0x800C⟩, ⟨.NOP, 0xF00F, 0x800D⟩,
   ⟨.NOP, 0xF00F, 0x800F⟩]

/-- The unmapped keys of family 0xE. -/
def opcodeRowsNopE : List OpcodeRow :=
  [⟨.NOP, 0xF00F, 0xE000⟩, ⟨.NOP, 0xF00F, 0xE002⟩, ⟨.NOP, 0xF00F, 0xE003⟩,
   ⟨.NOP, 0xF00F, 0xE004⟩, ⟨.NOP, 0xF00F, 0xE005⟩, ⟨.NOP, 0xF00F, 0xE006⟩,
   ⟨.NOP, 0xF00F, 0xE007⟩, ⟨.NOP, 0xF00F, 0xE008⟩, ⟨.NOP, 0xF00F, 0xE009⟩,
   ⟨.NOP, 0xF00F, 0xE00A⟩, ⟨.NOP, 0xF00F, 0xE00B⟩, ⟨.NOP, 0xF00F, 0xE00C⟩] ++
  [⟨.NOP, 0xF00F, 0xE00D⟩, ⟨.NOP, 0xF00F, 0xE00F⟩]

/-- The unmapped keys of family 0xF. -/
def opcodeRowsNopF : List OpcodeRow :=
  [⟨.NOP, 0xF0FC, 0xF000⟩, ⟨.NOP, 0xF0FE, 0xF004⟩, ⟨.NOP, 0xF0FF, 0xF006⟩,
   ⟨.NOP, 0xF0FE, 0xF008⟩, ⟨.NOP, 0xF0FF, 0xF00B⟩, ⟨.NOP, 0xF0FC, 0xF00C⟩,
   ⟨.NOP, 0xF0FC, 0xF010⟩, ⟨.NOP, 0xF0FF, 0xF014⟩, ⟨.NOP, 0xF0FE, 0xF016⟩,
   ⟨.NOP, 0xF0FF, 0xF019⟩, ⟨.NOP, 0xF0FE, 0xF01A⟩, ⟨.NOP, 0xF0FE, 0xF01C⟩] ++
  [⟨.NOP, 0xF0FF, 0xF01F⟩, ⟨.NOP, 0xF0F8, 0xF020⟩, ⟨.NOP, 0xF0FF, 0xF028⟩,
   ⟨.NOP, 0xF0FE, 0xF02A⟩, ⟨.NOP, 0xF0FC, 0xF02C⟩, ⟨.NOP, 0xF0FE, 0xF030⟩,
   ⟨.NOP, 0xF0FF, 0xF032⟩, ⟨.NOP, 0xF0FC, 0xF034⟩, ⟨.NOP, 0xF0F8, 0xF038⟩,
   ⟨.NOP, 0xF0F0, 0xF040⟩, ⟨.NOP, 0xF0FC, 0xF050⟩, ⟨.NOP, 0xF0FF, 0xF054⟩] ++
  [⟨.NOP, 0xF0FE, 0xF056⟩, ⟨.NOP, 0xF0F8, 0xF058⟩, ⟨.NOP, 0xF0FC, 0xF060⟩,
   ⟨.NOP, 0xF0FF, 0xF064⟩, ⟨.NOP, 0xF0FE, 0xF066⟩, ⟨.NOP, 0xF0F8, 0xF068⟩,
   ⟨.NOP, 0xF0F0, 0xF070⟩, ⟨.NOP, 0xF080, 0xF080⟩]

/-- The 101 rows of the table. -/
def opcodeTable : List OpcodeRow :=
  opcodeRowsNamed ++ opcodeRowsNop0 ++ opcodeRowsNop8 ++ opcodeRowsNopE ++ opcodeRowsNopF

end Sys2Proof
end

