-- ==== Sys2Proof/Machine/Flags.lean ====
section
/-! DEFINITION. The values written to VF (`spec/10_state.md` R22). The collision flag of `DRW` is in Machine/Display.lean,
since it is written pixel by pixel. -/

namespace Sys2Proof.Machine

/-- A flag as the byte VF holds. -/
def flagByte (b : Bool) : Byte := if b then 1 else 0

/-- `ADD Vx, Vy`: 1 if the unsigned sum exceeds 255 (R146). -/
def carryFlag (a b : Byte) : Byte := flagByte (decide (255 < a.toNat + b.toNat))

/-- `SUB` and `SUBN`: 1 if the minuend is strictly greater than the subtrahend (R147, R149). -/
def greaterFlag (a b : Byte) : Byte := flagByte (decide (b.toNat < a.toNat))

/-- `SHR`: bit 0 before the shift (R148). -/
def lowBitFlag (a : Byte) : Byte := flagByte (a.getLsbD 0)

/-- `SHL`: bit 7 before the shift (R150). -/
def highBitFlag (a : Byte) : Byte := flagByte (a.getLsbD 7)

end Sys2Proof.Machine
end

