-- ==== Sys2Proof/Config.lean ====
section
/-! DEFINITION. What is fixed for the machine (`spec/00_scope.md` R5) and the free values: the host's inputs of the cycles
whose inputs nobody has written down (`spec/10_state.md` R30, R35; decisions D15 and D27). The glyph bytes are the
parameter `GLYPHS` (decision D3), which the spec leaves open. -/

namespace Sys2Proof

/-- `ENTRY`: the address of the first program byte and the reset value of `pc` (R5, R34). -/
def Config.entry : Word := 0x200

/-- `GLYPH_BASE`: the first byte of the glyph table (R5, R51). -/
def Config.glyphBase : Nat := 0x050

/-- `GLYPHS`, OPEN PARAMETER (`spec/20_memory.md` R52, decision D3; log 4): the sixteen glyphs of five bytes that reset puts
at 0x050 to 0x09F. It has no body, so every claim holds for every table, and a claim about a picture drawn from it takes
its bytes as a hypothesis, such as `GlyphsAreDefault`. -/
opaque Config.glyphs : Fin 80 → Byte

/-- `MAX_IMAGE`: the longest program image `load` accepts (R5, decision D17). -/
def Config.maxImage : Nat := 3584

/-- FREE VALUE (log 2): the sixteen key flags the host supplies for a cycle whose input is not in State's `pending`
list, indexed by the number of completed cycles. Any 16-bit value, any change from cycle to cycle (R30, R223). -/
opaque Config.freeKey : Nat → Word

/-- FREE VALUE (log 2): the random byte the host supplies for such a cycle: any 8-bit value, with nothing assumed about
its relation to earlier or later ones (R151, decision D15). -/
opaque Config.freeRnd : Nat → Byte

end Sys2Proof
end

