-- ==== Sys2Proof/Machine/State.lean ====
section
/-! DEFINITION. The state of the core as plain data (`spec/10_state.md` R20 to R34), the reasons a step can stop, and the
state after reset (R34; `spec/70_reset_and_hazards.md` R220). -/

namespace Sys2Proof.Machine

/-- `CpuFault(kind, info)`, the six causes of `spec/60_exceptions.md` R200. No step of this model answers the outcome
`fault` with one: the spec describes what raising a fault does (R204), so a fault is TAKEN, as a next state whose `status`
holds it (log 3). Each docstring says who raises it. -/
inductive Fault where
  /-- Code 1: the fetch of any cycle with `pc > 0xFFE`. Safe where the hardware goes on (decision D9). -/
  | fetchAddress (pc : Word)
  /-- Code 2: `CALL addr` with `sp = 16`. Safe where the hardware goes on (decision D5). -/
  | stackOverflow
  /-- Code 3: `RET` with `sp = 0`. Safe where the hardware goes on (decision D6). -/
  | stackUnderflow
  /-- Code 4: `DRW`, `LD B, Vx`, `LD [I], Vx`, `LD Vx, [I]` with a data address above 0xFFF; the first such address in
  the instruction's access order. Safe where the hardware goes on (decision D8). -/
  | memAddress (addr : Nat)
  /-- Code 5: `DRW` with a set sprite bit whose linear index exceeds 2047; that index. Safe where the hardware goes on
  (decision D7). -/
  | framebufferIndex (idx : Nat)
  /-- Code 6: `SKP Vx`, `SKNP Vx` with `V[x] > 15`; that value. Safe where the hardware goes on (decision D10). -/
  | keyIndex (k : Byte)
  deriving DecidableEq, Repr

/-- Why the model gives an instruction no meaning. -/
inductive Refusal where
  /-- An instruction whose arm of exec has no meaning yet; raised by no arm of this model. Safe: the run stops. -/
  | notModelled (mnemonic : String)
  deriving DecidableEq, Repr

/-- The run status (R32): running, or stopped by a fault until the next reset. -/
inductive Status where
  | running
  | faulted (c : Fault)
  deriving DecidableEq, Repr

/-- What the host supplies with one call of `advance_cycle` (R35): the sixteen key flags, bit `k` for key `k` (R30), and the
random byte (`spec/42_alu.md` R151). -/
structure CycleInput where
  key : Word
  rnd : Byte
  deriving DecidableEq, Repr

/-- The byte array (`spec/20_memory.md` R50) as a list of (address, byte) pairs in canonical form: addresses strictly
rising, all below 4096, and no byte equal to what an unlisted address reads as (`Memory.wf` in Machine/Ops.lean). -/
abbrev Memory := List Host.Cell

/-- The complete state of the core (R20), and after it the inputs of the coming cycles, which are the model's own fields
(log 2): the spec passes `key` and `rnd` to every call of `advance_cycle`, and a step here has no arguments. -/
structure State where
  /-- 4096 bytes (R50). -/
  mem : Memory
  /-- V0 to VF (R21). -/
  V : Vector Byte 16
  /-- The index register (R23). -/
  I : Word
  /-- The program counter (R24). -/
  pc : Word
  /-- The sixteen slots of the call stack (R25). -/
  stack : Vector Word 16
  /-- The number of return addresses on the stack, 0 to 16 (R26). -/
  sp : Fin 17
  /-- The delay timer (R27). -/
  DT : Byte
  /-- The sound timer (R28). -/
  ST : Byte
  /-- The framebuffer, 32 rows of 64 one-bit cells (R29): cell `i` is bit `i mod 64` of row `i div 64`. -/
  fb : Vector (BitVec 64) 32
  /-- The current opcode, the word the last completed cycle fetched (R31). -/
  opcode : Word
  /-- The run status (R32). -/
  status : Status
  /-- INPUT: the key flags sampled for the coming cycle (R30, `spec/40_cycle_and_dispatch.md` R108). -/
  key : Word
  /-- INPUT: the random byte of the coming cycle (R35, R108). -/
  rnd : Byte
  /-- INPUT: what the host supplies with the cycles after the coming one, the first first. -/
  pending : List CycleInput
  /-- How many cycles have completed; it picks the free inputs once `pending` is empty. -/
  cycles : Nat
  deriving DecidableEq, Repr

/-- The machine right after reset (R34, R220): the glyph table in place (it is what the unlisted addresses 0x050 to 0x09F
read as), `pc` at the entry address, everything else zero (decision D2). The inputs and the counter are the model's own
fields; their values here are a DESIGN CHOICE (log 2). -/
def State.reset : State where
  mem := []
  V := Vector.replicate 16 0
  I := 0
  pc := Config.entry
  stack := Vector.replicate 16 0
  sp := 0
  DT := 0
  ST := 0
  fb := Vector.replicate 32 0
  opcode := 0
  status := .running
  key := 0
  rnd := 0
  pending := []
  cycles := 0

end Sys2Proof.Machine
end

