-- ==== Sys2Proof/Machine/Glyphs.lean ====
section
/-! DEFINITION. The default glyph table, and what a byte of memory reads as that nothing has written since reset
(`spec/20_memory.md` R51, R52; `spec/10_state.md` R34). -/

namespace Sys2Proof.Machine

/-- Glyphs 0 to 7 of the default of the parameter `GLYPHS` (R52, decision D3). PRESUMED: the spec supplies these bytes
from general knowledge (item GK2, log 4). -/
def glyphsLow : List Byte :=
  [0xF0, 0x90, 0x90, 0x90, 0xF0, 0x20, 0x60, 0x20, 0x20, 0x70] ++
  [0xF0, 0x10, 0xF0, 0x80, 0xF0, 0xF0, 0x10, 0xF0, 0x10, 0xF0] ++
  [0x90, 0x90, 0xF0, 0x10, 0x10, 0xF0, 0x80, 0xF0, 0x10, 0xF0] ++
  [0xF0, 0x80, 0xF0, 0x90, 0xF0, 0xF0, 0x10, 0x20, 0x40, 0x40]

/-- Glyphs 8 to F of the default of `GLYPHS` (R52). PRESUMED (log 4). -/
def glyphsHigh : List Byte :=
  [0xF0, 0x90, 0xF0, 0x90, 0xF0, 0xF0, 0x90, 0xF0, 0x10, 0xF0] ++
  [0xF0, 0x90, 0xF0, 0x90, 0x90, 0xE0, 0x90, 0xE0, 0x90, 0xE0] ++
  [0xF0, 0x80, 0x80, 0x80, 0xF0, 0xE0, 0x90, 0x90, 0x90, 0xE0] ++
  [0xF0, 0x80, 0xF0, 0x80, 0xF0, 0xF0, 0x80, 0xF0, 0x80, 0x80]

/-- The default of `GLYPHS`: sixteen glyphs of five bytes (R52). No definition of the machine reads it. -/
def defaultGlyphs : List Byte := glyphsLow ++ glyphsHigh

/-- `GLYPHS` is a given table: the hypothesis of a claim about what a built-in glyph draws (R52, decision D3). -/
def GlyphsAre (g : List Byte) : Prop := ∀ j : Fin 80, g[j.val]? = some (Config.glyphs j)

/-- `GLYPHS` has its default value (R5, R52). -/
def GlyphsAreDefault : Prop := GlyphsAre defaultGlyphs

/-- What an unlisted address reads as: its byte after reset, `GLYPHS[j]` at 0x050 + j for j up to 79 and 0x00 elsewhere
(R34, R51). -/
def Memory.background (a : Nat) : Byte :=
  if h : Config.glyphBase ≤ a ∧ a < Config.glyphBase + 80 then Config.glyphs ⟨a - Config.glyphBase, by omega⟩ else 0

end Sys2Proof.Machine
end

