-- ==== Sys2Proof/Machine/Ops.lean ====
section
/-! DEFINITION. The shared operations: memory, taking a fault, the parts of a cycle, the call stack
(`spec/20_memory.md`, `spec/40_cycle_and_dispatch.md`, `spec/41_control_flow.md`, `spec/60_exceptions.md`). -/

namespace Sys2Proof.Machine

/-- What exec and step answer. -/
abbrev Result := Host.Outcome State Fault Refusal

/-! ## The byte array (R50) -/

/-- The byte at an address (R53). -/
def Memory.read : Memory → Nat → Byte
  | [], a => Memory.background a
  | (b, v) :: m, a => if a = b then v else Memory.read m a

/-- Put a byte at an address that is not listed, keeping the addresses in rising order. -/
def Memory.insert : Memory → Nat → Byte → Memory
  | [], a, v => [(a, v)]
  | (b, w) :: m, a, v => if a < b then (a, v) :: (b, w) :: m else (b, w) :: Memory.insert m a v

/-- Let an address read as it does after reset. -/
def Memory.erase (m : Memory) (a : Nat) : Memory := m.filter (fun c => c.1 ≠ a)

/-- Set the byte at an address and change no other (R54). A byte equal to what the address reads as unlisted is not
listed. -/
def Memory.write (m : Memory) (a : Nat) (v : Byte) : Memory :=
  if v = Memory.background a then m.erase a else (m.erase a).insert a v

/-- Set bytes at ascending addresses. -/
def Memory.writeList : Memory → Nat → List Byte → Memory
  | m, _, [] => m
  | m, a, v :: vs => Memory.writeList (m.write a v) (a + 1) vs

/-- The canonical form: addresses strictly rising, all below 4096 (R50), no byte that equals what its address reads as
unlisted. -/
abbrev Memory.wf (m : Memory) : Prop :=
  m.Pairwise (fun c d => c.1 < d.1) ∧ ∀ c ∈ m, c.1 < 4096 ∧ c.2 ≠ Memory.background c.1

/-! ## Faults (R200, R204) -/

/-- The cause code of a fault (R200, decision D4). -/
def Fault.code : Fault → Nat
  | .fetchAddress _ => 1
  | .stackOverflow => 2
  | .stackUnderflow => 3
  | .memAddress _ => 4
  | .framebufferIndex _ => 5
  | .keyIndex _ => 6

/-- The `info` a fault records (R200). -/
def Fault.info : Fault → Nat
  | .fetchAddress pc => pc.toNat
  | .stackOverflow => 16
  | .stackUnderflow => 0
  | .memAddress addr => addr
  | .framebufferIndex idx => idx
  | .keyIndex k => k.toNat

/-- TAKING A FAULT (R204): of the given state nothing changes but `status`. There is no return from a fault; only
`State.reset` leaves it (R206). -/
def takeFault (c : Fault) (s : State) : State := { s with status := .faulted c }

/-- The end of a handler that may raise a fault: its result, or the fault taken from the state it started in, so that none
of its writes is kept (R106). -/
def settle (s : State) : Except Fault State → Result
  | .ok t => .next t
  | .error c => .next (takeFault c s)

/-! ## Memory access with its range check (R53 to R55) -/

/-- `MemRead(addr, 1)`. -/
def readByte (s : State) (addr : Nat) : Except Fault Byte :=
  if addr ≤ 0xFFF then .ok (s.mem.read addr) else .error (.memAddress addr)

/-- `MemWrite(addr, 1, v)`. -/
def writeByte (s : State) (addr : Nat) (v : Byte) : Except Fault State :=
  if addr ≤ 0xFFF then .ok { s with mem := s.mem.write addr v } else .error (.memAddress addr)

/-- `MemWrite` of some bytes, one after the other, at ascending addresses. -/
def writeBytes : State → Nat → List Byte → Except Fault State
  | s, _, [] => .ok s
  | s, addr, v :: vs =>
    match writeByte s addr v with
    | .ok t => writeBytes t (addr + 1) vs
    | .error c => .error c

/-! ## The program counter -/

/-- `pc <- target`. -/
def State.setPc (s : State) (target : Word) : State := { s with pc := target }

/-- `skip`, when the condition holds (R8). -/
def skipIf (c : Bool) (s : State) : State := if c then s.setPc (s.pc + 2) else s

/-! ## The call stack (R25, R26) -/

/-- Store `pc` at `stack[sp]`, then increment `sp` (R122). -/
def pushPc (s : State) : Except Fault State :=
  if h : s.sp.val < 16 then
    .ok { s with stack := s.stack.set s.sp.val s.pc h, sp := ⟨s.sp.val + 1, by omega⟩ }
  else .error .stackOverflow

/-- Decrement `sp`, then set `pc` to `stack[sp]` (R120); the slot keeps its value. -/
def popPc (s : State) : Except Fault State :=
  if _h : s.sp.val = 0 then .error .stackUnderflow
  else .ok { s with sp := ⟨s.sp.val - 1, by omega⟩, pc := s.stack[s.sp.val - 1]'(by omega) }

/-! ## The cycle (R100) -/

/-- Step 1: read the two bytes at `pc`, high byte first (R101). -/
def fetch (s : State) : Except Fault Word :=
  if 0xFFE < s.pc.toNat then .error (.fetchAddress s.pc)
  else .ok (s.mem.read s.pc.toNat ++ s.mem.read (s.pc.toNat + 1))

/-- What the handler of the opcode `w` finds: `opcode` holds it and `pc` has advanced by 2 (R101, R102). -/
def State.advance (s : State) (w : Word) : State := { s with opcode := w, pc := s.pc + 2 }

/-- One timer's tick: down by 1 unless it is 0 (R105). -/
def countDown (t : Byte) : Byte := if t = 0 then 0 else t - 1

/-- Step 5: both timers tick (R105). -/
def State.tick (s : State) : State := { s with DT := countDown s.DT, ST := countDown s.ST }

/-- The inputs of the next cycle: what the host has supplied, else free values (R30, R35, R223; log 2). -/
def State.nextInput (s : State) : State :=
  match s.pending with
  | i :: rest => { s with key := i.key, rnd := i.rnd, pending := rest, cycles := s.cycles + 1 }
  | [] => { s with key := Config.freeKey s.cycles, rnd := Config.freeRnd s.cycles, cycles := s.cycles + 1 }

/-- The end of a cycle whose handler left `after`: a fault is taken from the state before the cycle, so `pc`, `opcode` and
the timers keep their values (R106, R204); else the timers tick. -/
def endCycle (before after : State) : State :=
  match after.status with
  | .running => after.tick.nextInput
  | .faulted c => takeFault c before

/-- `endCycle` on an outcome of exec. -/
def finishCycle (before : State) : Result → Result
  | .next after => .next (endCycle before after)
  | .fault f => .fault f
  | .refused r => .refused r

end Sys2Proof.Machine
end

