-- ==== Sys2Proof/Machine/Operands.lean ====
section
/-! DEFINITION. The operand forms: registers, `I`, the register block V0 to Vx, decimal digits, glyph addresses, sprite
pixels, keys (`spec/10_state.md` R21, R29, R30; `spec/42_alu.md` to `spec/45_keypad_timers.md`). -/

namespace Sys2Proof.Machine

/-! ## General registers (R21): none is hard-wired -/

/-- `V[x]`. -/
def State.getV (s : State) (x : Reg) : Byte := s.V[x]

/-- `V[x] <- v`. -/
def State.setV (s : State) (x : Reg) (v : Byte) : State := { s with V := s.V.set x v }

/-- The registers V0 to Vx in ascending order (R164, R165). -/
def regsUpTo (x : Reg) : List Reg := (List.finRange 16).take (x.val + 1)

/-- `V[i] <- MemRead(I + i, 1)` for each register of the list, in its order (R165). -/
def loadRegs (s : State) (base : Nat) : List Reg → Except Fault State
  | [] => .ok s
  | r :: rs =>
    match readByte s (base + r.val) with
    | .ok b => loadRegs (s.setV r b) base rs
    | .error c => .error c

/-! ## The index register (R23) and the timers (R27, R28) -/

/-- `I <- w`. -/
def State.setI (s : State) (w : Word) : State := { s with I := w }

/-- `DT <- v`. -/
def State.setDT (s : State) (v : Byte) : State := { s with DT := v }

/-- `ST <- v`. -/
def State.setST (s : State) (v : Byte) : State := { s with ST := v }

/-- The address of glyph `v`: `0x050 + 5 * v`, for the whole 8-bit value (R162). -/
def glyphAddress (v : Byte) : Word := BitVec.ofNat 16 (Config.glyphBase + 5 * v.toNat)

/-- Hundreds, tens and ones of a byte, each a byte of its own (R163). -/
def decimalDigits (v : Byte) : List Byte :=
  [BitVec.ofNat 8 (v.toNat / 100), BitVec.ofNat 8 (v.toNat / 10 % 10), BitVec.ofNat 8 (v.toNat % 10)]

/-! ## The framebuffer (R29) -/

/-- Cell `idx` of the framebuffer: column `idx mod 64`, row `idx div 64`. There is no cell from 2048 on. -/
def State.pixel (s : State) (idx : Nat) : Bool :=
  if h : idx < 2048 then (s.fb[idx / 64]'(by omega)).getLsbD (idx % 64) else false

/-- `fb[idx] <- fb[idx] xor 1`. -/
def State.flipPixel (s : State) (idx : Nat) (h : idx < 2048) : State :=
  { s with fb := s.fb.set (idx / 64) (s.fb[idx / 64]'(by omega) ^^^ BitVec.twoPow 64 (idx % 64)) (by omega) }

/-- `fb[i] <- 0` for every cell. -/
def State.clearPixels (s : State) : State := { s with fb := Vector.replicate 32 0 }

/-- The linear index of a sprite pixel, not reduced (R171). -/
def pixelIndex (x0 y0 row col : Nat) : Nat := (y0 + row) * 64 + (x0 + col)

/-- Bit `7 - col` of a sprite byte: bit 7 is the leftmost pixel (R171). PRESUMED by the spec (item GK3, log 7). -/
def spriteBit (b : Byte) (col : Nat) : Bool := b.getLsbD (7 - col)

/-! ## The keypad (R30) -/

/-- `key[k]`. -/
def State.keyDown (s : State) (k : Nat) : Bool := s.key.getLsbD k

/-- The key flag that the value of `V[x]` selects; the value is not masked to four bits (R180, R181). -/
def selectedKey (s : State) (x : Reg) : Except Fault Bool :=
  if (s.getV x).toNat ≤ 15 then .ok (s.keyDown (s.getV x).toNat) else .error (.keyIndex (s.getV x))

/-- The least pressed key (R183, decision D14). -/
def lowestKey (s : State) : Option (Fin 16) := (List.finRange 16).find? (fun k => s.keyDown k.val)

end Sys2Proof.Machine
end

