-- ==== Sys2Proof/Machine/Alu.lean ====
section
/-! DEFINITION. Register loads, arithmetic, logic, shifts and `RND` (`spec/42_alu.md` R140 to R153). The statements of each
meaning run in the order of its rule, each reading the state as the one before left it (`spec/00_scope.md` R10, decision
D12): that settles the cases in which VF is also an operand (R153). -/

namespace Sys2Proof.Machine

/-- `LD Vx, byte` (R140). -/
def execLdByte (x : Reg) (kk : Byte) (s : State) : Result := .next (s.setV x kk)

/-- `ADD Vx, byte` (R141): no flag. -/
def execAddByte (x : Reg) (kk : Byte) (s : State) : Result := .next (s.setV x (s.getV x + kk))

/-- `LD Vx, Vy` (R142). -/
def execLdReg (x y : Reg) (s : State) : Result := .next (s.setV x (s.getV y))

/-- `OR Vx, Vy` (R143): no flag. -/
def execOrReg (x y : Reg) (s : State) : Result := .next (s.setV x (s.getV x ||| s.getV y))

/-- `AND Vx, Vy` (R144): no flag. -/
def execAndReg (x y : Reg) (s : State) : Result := .next (s.setV x (s.getV x &&& s.getV y))

/-- `XOR Vx, Vy` (R145): no flag. -/
def execXorReg (x y : Reg) (s : State) : Result := .next (s.setV x (s.getV x ^^^ s.getV y))

/-- `ADD Vx, Vy` (R146): the result first, the flag last. -/
def execAddReg (x y : Reg) (s : State) : Result :=
  .next ((s.setV x (s.getV x + s.getV y)).setV VF (carryFlag (s.getV x) (s.getV y)))

/-- `V[a] <- V[b] - V[c]`, wrapping, on the state as it stands. -/
def subtractInto (a b c : Reg) (s : State) : State := s.setV a (s.getV b - s.getV c)

/-- `SUB Vx, Vy` (R147): the flag first, then the result from the registers as the flag left them. -/
def execSubReg (x y : Reg) (s : State) : Result :=
  .next (subtractInto x x y (s.setV VF (greaterFlag (s.getV x) (s.getV y))))

/-- `SHR Vx` (R148): the flag first, then the shift. -/
def execShr (x : Reg) (s : State) : Result :=
  let t := s.setV VF (lowBitFlag (s.getV x))
  .next (t.setV x (t.getV x >>> 1))

/-- `SUBN Vx, Vy` (R149): the flag first, then the result. -/
def execSubnReg (x y : Reg) (s : State) : Result :=
  .next (subtractInto x y x (s.setV VF (greaterFlag (s.getV y) (s.getV x))))

/-- `SHL Vx` (R150): the flag first, then the shift. -/
def execShl (x : Reg) (s : State) : Result :=
  let t := s.setV VF (highBitFlag (s.getV x))
  .next (t.setV x (t.getV x <<< 1))

/-- `RND Vx, byte` (R151): the random byte of the cycle under the mask. -/
def execRnd (x : Reg) (kk : Byte) (s : State) : Result := .next (s.setV x (s.rnd &&& kk))

end Sys2Proof.Machine
end

