-- ==== Sys2Proof/Machine/Control.lean ====
section
/-! DEFINITION. Control flow (`spec/41_control_flow.md` R120 to R127) and the no-op handler
(`spec/40_cycle_and_dispatch.md` R107). A meaning is step 4 of the cycle: it finds `pc` already advanced (R102). -/

namespace Sys2Proof.Machine

/-- `RET` (R120). -/
def execRet (s : State) : Result := settle s (popPc s)

/-- `JP addr` (R121). -/
def execJp (nnn : Addr) (s : State) : Result := .next (s.setPc (zext16 nnn))

/-- `CALL addr` (R122). -/
def execCall (nnn : Addr) (s : State) : Result := settle s ((pushPc s).map (fun t => t.setPc (zext16 nnn)))

/-- `SE Vx, byte` (R123). -/
def execSeByte (x : Reg) (kk : Byte) (s : State) : Result := .next (skipIf (s.getV x == kk) s)

/-- `SNE Vx, byte` (R124). -/
def execSneByte (x : Reg) (kk : Byte) (s : State) : Result := .next (skipIf (s.getV x != kk) s)

/-- `SE Vx, Vy` (R125). -/
def execSeReg (x y : Reg) (s : State) : Result := .next (skipIf (s.getV x == s.getV y) s)

/-- `SNE Vx, Vy` (R126). -/
def execSneReg (x y : Reg) (s : State) : Result := .next (skipIf (s.getV x != s.getV y) s)

/-- `JP V0, addr` (R127): the sum is not reduced mod 4096. -/
def execJpV0 (nnn : Addr) (s : State) : Result := .next (s.setPc (zext16 (s.getV 0) + zext16 nnn))

/-- The no-op handler (R107): nothing, whatever the unmapped word. -/
def execNop (_w : Word) (s : State) : Result := .next s

end Sys2Proof.Machine
end

