-- ==== Sys2Proof/Machine/Display.lean ====
section
/-! DEFINITION. The framebuffer instructions (`spec/44_display.md` R170, R171). -/

namespace Sys2Proof.Machine

/-- One set sprite bit (R171): fault if there is no such cell, else set VF if the cell is lit, then toggle it. -/
def drawPixel (idx : Nat) (s : State) : Except Fault State :=
  if h : idx < 2048 then .ok ((if s.pixel idx then s.setV VF 1 else s).flipPixel idx h)
  else .error (.framebufferIndex idx)

/-- The columns `cols` of one sprite row `b`, in the list's order (R171). A clear bit does nothing. -/
def drawCols (x0 y0 row : Nat) (b : Byte) : List Nat → State → Except Fault State
  | [], s => .ok s
  | col :: cols, s =>
    if spriteBit b col then
      match drawPixel (pixelIndex x0 y0 row col) s with
      | .ok t => drawCols x0 y0 row b cols t
      | .error c => .error c
    else drawCols x0 y0 row b cols s

/-- Sprite rows `row`, `row + 1`, … as many as `left` says: read the row's byte, then draw its eight columns (R171, R205). -/
def drawRows (x0 y0 : Nat) : (row left : Nat) → State → Except Fault State
  | _, 0, s => .ok s
  | row, left + 1, s =>
    match readByte s (s.I.toNat + row) with
    | .error c => .error c
    | .ok b =>
      match drawCols x0 y0 row b (List.range 8) s with
      | .error c => .error c
      | .ok t => drawRows x0 y0 (row + 1) left t

/-- `CLS` (R170). -/
def execCls (s : State) : Result := .next s.clearPixels

/-- `DRW Vx, Vy, n` (R171): the anchor is read first (decision D13), then VF is cleared, then the rows are drawn. -/
def execDrw (x y : Reg) (n : Nibble) (s : State) : Result :=
  settle s (drawRows ((s.getV x).toNat % 64) ((s.getV y).toNat % 32) 0 n.toNat (s.setV VF 0))

end Sys2Proof.Machine
end

