-- ==== Sys2Proof/Machine/IndexMemory.lean ====
section
/-! DEFINITION. The index register and memory (`spec/43_index_memory.md` R160 to R165). `I` is unchanged by the three that
access memory (decision D28). -/

namespace Sys2Proof.Machine

/-- `LD I, addr` (R160). -/
def execLdI (nnn : Addr) (s : State) : Result := .next (s.setI (zext16 nnn))

/-- `ADD I, Vx` (R161): 16 bits of the sum, no flag. -/
def execAddI (x : Reg) (s : State) : Result := .next (s.setI (s.I + zext16 (s.getV x)))

/-- `LD F, Vx` (R162). -/
def execLdF (x : Reg) (s : State) : Result := .next (s.setI (glyphAddress (s.getV x)))

/-- `LD B, Vx` (R163): three bytes from `I` on. -/
def execLdB (x : Reg) (s : State) : Result := settle s (writeBytes s s.I.toNat (decimalDigits (s.getV x)))

/-- `LD [I], Vx` (R164): `x + 1` bytes from `I` on. -/
def execStRegs (x : Reg) (s : State) : Result := settle s (writeBytes s s.I.toNat ((regsUpTo x).map s.getV))

/-- `LD Vx, [I]` (R165): `x + 1` bytes from `I` on. -/
def execLdRegs (x : Reg) (s : State) : Result := settle s (loadRegs s s.I.toNat (regsUpTo x))

end Sys2Proof.Machine
end

