-- ==== Sys2Proof/Machine/KeypadTimers.lean ====
section
/-! DEFINITION. The keypad and the timers (`spec/45_keypad_timers.md` R180 to R185). -/

namespace Sys2Proof.Machine

/-- `SKP Vx` (R180). -/
def execSkp (x : Reg) (s : State) : Result := settle s ((selectedKey s x).map (fun down => skipIf down s))

/-- `SKNP Vx` (R181). -/
def execSknp (x : Reg) (s : State) : Result := settle s ((selectedKey s x).map (fun down => skipIf (!down) s))

/-- `LD Vx, DT` (R182): the value before this cycle's tick. -/
def execLdVxDT (x : Reg) (s : State) : Result := .next (s.setV x s.DT)

/-- `LD Vx, K` (R183): the least pressed key, or back to this instruction's own address. -/
def execLdVxK (x : Reg) (s : State) : Result :=
  match lowestKey s with
  | some k => .next (s.setV x (BitVec.ofNat 8 k.val))
  | none => .next (s.setPc (s.pc - 2))

/-- `LD DT, Vx` (R184). -/
def execLdDTVx (x : Reg) (s : State) : Result := .next (s.setDT (s.getV x))

/-- `LD ST, Vx` (R185). -/
def execLdSTVx (x : Reg) (s : State) : Result := .next (s.setST (s.getV x))

end Sys2Proof.Machine
end

