-- ==== Sys2Proof/Machine/HostInterface.lean ====
section
/-! DEFINITION. What the host does between cycles (`spec/10_state.md` R35, R36; `spec/70_reset_and_hazards.md` R221 to R223):
`load`, supplying inputs, reading the framebuffer. `reset` is State.reset. The other accessors of R36 are State's fields,
`State.getV`, `State.pixel` and `Memory.read`. -/

namespace Sys2Proof.Machine

/-- The error `load` reports; not a fault of the core (R202). -/
inductive LoadError where
  | empty
  | tooLong
  deriving DecidableEq, Repr

/-- `load(bytes)` (R221): the image goes to 0x200 and on; an empty or over-long one changes nothing (decision D17). -/
def State.load (s : State) (bytes : List Byte) : Except LoadError State :=
  if bytes.length = 0 then .error .empty
  else if Config.maxImage < bytes.length then .error .tooLong
  else .ok { s with mem := s.mem.writeList Config.entry.toNat bytes }

/-- The host sets the key flags and the random byte of the coming cycle (R223). -/
def State.withInput (s : State) (i : CycleInput) : State := { s with key := i.key, rnd := i.rnd }

/-- The host's inputs for the cycles after the coming one. -/
def State.withPending (s : State) (is : List CycleInput) : State := { s with pending := is }

/-- A framebuffer cell as the presentation layer reads it (R29, decision D24). -/
def State.pixelWord (s : State) (idx : Nat) : BitVec 32 := if s.pixel idx then 0xFFFFFFFF else 0x00000000

end Sys2Proof.Machine
end

