-- ==== Sys2Proof/Machine/Step.lean ====
section
/-! DEFINITION. One step is one call of `advance_cycle` (`spec/40_cycle_and_dispatch.md` R100). -/

namespace Sys2Proof.Machine

/-- `advance_cycle(key, rnd)` with the inputs that State holds for the coming cycle: nothing on a faulted core (R106), else
fetch, advance, decode, execute, tick. -/
def step (s : State) : Host.Outcome State Fault Refusal :=
  match s.status with
  | .faulted _ => .next s
  | .running =>
    match fetch s with
    | .error c => .next (takeFault c s)
    | .ok w => finishCycle s (exec (decodeWord w) (s.advance w))

/-- `s` with the opcode `w` where step fetches next: its two bytes at `pc`, high byte first. A fetch needs a running core
and `pc ≤ 0xFFE`, so the status is set to running and a `pc` beyond the last fetchable address to the entry address
(log 8). -/
def State.withFetchWord (s : State) (nbits w : Nat) : State :=
  let pc := if s.pc.toNat ≤ 0xFFE then s.pc else Config.entry
  { s with
    mem := s.mem.writeList pc.toNat (bytesOfWord (BitVec.ofNat 16 (w % 2 ^ nbits)))
    pc := pc
    status := .running }

end Sys2Proof.Machine
end

