-- ==== Sys2Proof/Safety.lean ====
section
/-! DEFINITION. The terms claims are stated in: frames, the invariant of the core, sprites that fit, runs that are safe. -/

namespace Sys2Proof.Machine

/-- A part of the state, as a frame names it: a register, a stack slot, a framebuffer cell, a byte of memory, … -/
inductive Part where
  | reg (x : Reg)
  | index
  | pc
  | slot (k : Fin 16)
  | sp
  | delay
  | sound
  | cell (i : Nat)
  | byte (a : Nat)
  | opcode
  | status
  /-- The inputs: `key`, `rnd`, `pending`, `cycles`. -/
  | input
  deriving DecidableEq, Repr

/-- FRAME: from `s` to `t` nothing has changed but the parts in `W`, every byte of memory, every stack slot and every cell
of the framebuffer counted. -/
structure UnchangedBut (W : Part → Prop) (s t : State) : Prop where
  reg : ∀ x, ¬ W (.reg x) → t.getV x = s.getV x
  index : ¬ W .index → t.I = s.I
  pc : ¬ W .pc → t.pc = s.pc
  slot : ∀ k : Fin 16, ¬ W (.slot k) → t.stack[k] = s.stack[k]
  sp : ¬ W .sp → t.sp = s.sp
  delay : ¬ W .delay → t.DT = s.DT
  sound : ¬ W .sound → t.ST = s.ST
  cell : ∀ i, i < 2048 → ¬ W (.cell i) → t.pixel i = s.pixel i
  byte : ∀ a, ¬ W (.byte a) → t.mem.read a = s.mem.read a
  opcode : ¬ W .opcode → t.opcode = s.opcode
  status : ¬ W .status → t.status = s.status
  input : ¬ W .input → t.key = s.key ∧ t.rnd = s.rnd ∧ t.pending = s.pending ∧ t.cycles = s.cycles

/-- The frame of an instruction that writes the listed parts. -/
abbrev UnchangedButList (ps : List Part) (s t : State) : Prop := UnchangedBut (fun p => p ∈ ps) s t

/-- The word at `pc`, high byte first (`spec/20_memory.md` R56). -/
def State.wordAtPc (s : State) : Word := s.mem.read s.pc.toNat ++ s.mem.read (s.pc.toNat + 1)

/-- The next cycle fetches the word at `pc` and runs `i`: the core runs and `pc` is fetchable (R101). -/
structure State.NextRuns (s : State) (i : Instr) : Prop where
  running : s.status = .running
  fetchable : s.pc.toNat ≤ 0xFFE
  decodes : decodeWord s.wordAtPc = i

/-- The bounds every reachable state has (`spec/10_state.md` R24; `spec/41_control_flow.md` R120): memory is in canonical
form, `pc` is at most 0x10FE and every stack slot at most 0x1000. -/
structure State.Inv (s : State) : Prop where
  mem : s.mem.wf
  pc : s.pc.toNat ≤ 0x10FE
  stack : ∀ k : Fin 16, s.stack[k].toNat ≤ 0x1000

/-- Bit `7 - col` of sprite row `row` is set and cell `i` is where it lands (`spec/44_display.md` R171), for a sprite of `n`
rows drawn with V[x], V[y] as the anchor. -/
def SpriteCell (s : State) (x y : Reg) (n : Nibble) (i : Nat) : Prop :=
  ∃ row col, row < n.toNat ∧ col < 8 ∧ (s.mem.read (s.I.toNat + row)).getLsbD (7 - col) = true ∧
    i = ((s.getV y).toNat % 32 + row) * 64 + ((s.getV x).toNat % 64 + col)

/-- The sprite's rows are in memory and its set bits on the screen, so that drawing it raises no fault (R171). -/
structure SpriteFits (s : State) (x y : Reg) (n : Nibble) : Prop where
  rows : ∀ row, row < n.toNat → s.I.toNat + row ≤ 0xFFF
  cells : ∀ i, SpriteCell s x y n i → i ≤ 2047

/-- The program has ended at `h` (`spec/70_reset_and_hazards.md` R224): the next instruction is a jump to itself. -/
structure State.EndedAt (s : State) (h : Nat) : Prop where
  running : s.status = .running
  here : s.pc.toNat = h
  fetchable : h ≤ 0xFFE
  selfJump : s.wordAtPc.toNat = 0x1000 + h

/-- SAFE for `n` cycles: none of the first `n` cycles faults (`spec/60_exceptions.md` R204: a faulted state is never the
final state of a successful run). -/
def State.SafeFor (s : State) (n : Nat) : Prop := ∃ t, Host.Core.run Sys2Proof.core n s = .next t ∧ t.status = .running

end Sys2Proof.Machine
end

