-- ==== Sys2Proof/WellFormed.lean ====
section
/-! DEFINITION. When an instruction is well formed. Register indices, immediates and heights carry their bounds in their
types, so the one thing left to check is that a no-op's word is one of the unmapped words (`spec/30_encoding.md` R79). -/

namespace Sys2Proof

/-- An instruction some word of the machine decodes to. -/
def Instr.wf : Instr → Bool
  | .nop w => unmappedWord w
  | _ => true

end Sys2Proof
end

