-- ==== Sys2Proof/Certificates/Slice0/Obligations.lean ====
section
/-! DEFINITION. The statements for the provers. "At the level of exec" means step 4 of the cycle: the state is the one the
handler finds, with `pc` already advanced (`spec/40_cycle_and_dispatch.md` R102, R104). -/

open Sys2Proof Sys2Proof.Machine

/-! ## Reset and the invariant -/

/-- R220, R34 with decision D2 of the spec: what `reset` leaves. The glyph bytes are the open parameter `GLYPHS`
(decision D3; log 4), whatever they are; nothing is said of the inputs, which are the model's own fields. -/
def Obligations.ResetLeavesTheStatedValues : Prop :=
  State.reset.pc.toNat = 0x200 ∧ (∀ x, State.reset.getV x = 0) ∧ State.reset.I = 0 ∧ State.reset.sp.val = 0 ∧
  (∀ k : Fin 16, State.reset.stack[k] = 0) ∧ State.reset.DT = 0 ∧ State.reset.ST = 0 ∧
  (∀ i, i < 2048 → State.reset.pixel i = false) ∧ State.reset.opcode = 0 ∧ State.reset.status = .running ∧
  (∀ j : Fin 80, State.reset.mem.read (0x050 + j.val) = Config.glyphs j) ∧
  (∀ a, a < 0x050 ∨ (0x0A0 ≤ a ∧ a ≤ 0xFFF) → State.reset.mem.read a = 0)

/-- R34, R220: the invariant (its bounds are those of R24 and R120) holds after reset. Its stack clause rests on the reset
zeros, decision D2 of the spec (log 1), and its memory clause on what reset leaves in memory. -/
def Obligations.ResetSatisfiesTheInvariant : Prop := State.reset.Inv

/-- R24 ("The largest value `pc` can ever hold is 0x10FE"), R120 ("at most 0x1000"), R50: from EVERY state that meets the
invariant, a step gives a state that meets it. -/
def Obligations.StepKeepsTheInvariant : Prop := ∀ s t : State, s.Inv → step s = .next t → t.Inv

/-! ## Encoding -/

/-- Decoding the bytes of a well-formed instruction gives it back, with every operand, and leaves the rest of the bytes. -/
def Obligations.DecodeOfEncodeIsTheInstruction : Prop :=
  ∀ (i : Instr) (rest : List Byte), i.wf = true → decode (encodeBytes i ++ rest) = .ok (i, rest)

/-- R79, R80: every word decodes to a well-formed instruction, and encoding that instruction again gives a word that the
machine treats alike; a word decodes to the no-op handler exactly if it is an unmapped word. -/
def Obligations.EveryWordDecodesToAWellFormedInstruction : Prop :=
  ∀ w : Word, (decodeWord w).wf = true ∧ decodeWord (encode (decodeWord w)) = decodeWord w ∧
    (unmappedWord w = true ↔ decodeWord w = .nop w)

/-- R80: the table partitions the 65536 words, and the decoder selects the instruction of the one row a word matches. -/
def Obligations.EveryWordMatchesExactlyItsRowOfTheTable : Prop :=
  ∀ w : Word, ∃ r ∈ opcodeTable, r.matches w = true ∧ r.name = (decodeWord w).mnemonic ∧
    ∀ r' ∈ opcodeTable, r'.matches w = true → r' = r

/-- R73: the top nibble alone selects the instruction outside the four families; in 0x0, 0x8 and 0xE the low nibble joins
it, in 0xF the low byte; no other bit takes part. -/
def Obligations.SelectionReadsOnlyTheDispatchKeys : Prop :=
  ∀ v w : Word, opField v = opField w →
    (opField v = 0x0 ∨ opField v = 0x8 ∨ opField v = 0xE → nField v = nField w) →
    (opField v = 0xF → kkField v = kkField w) →
    (decodeWord v).mnemonic = (decodeWord w).mnemonic

/-- R72, R7: the fields as the numbers the spec's mask expressions give. -/
def Obligations.FieldsAreTheMaskedBits : Prop :=
  ∀ w : Word, (xField w).val = (w.toNat &&& 0x0F00) >>> 8 ∧ (yField w).val = (w.toNat &&& 0x00F0) >>> 4 ∧
    (kkField w).toNat = w.toNat &&& 0x00FF ∧ (nnnField w).toNat = w.toNat &&& 0x0FFF ∧
    (nField w).toNat = w.toNat &&& 0x000F

/-- Words of `spec/95_test_vectors.md` 2.1, aliases and unmapped words among them. All keys but those of `00E0` and `8xy4`
are the spec's general knowledge (its item GK1; log 5). -/
def Obligations.WordsOfTheSpecDecodeAsListed : Prop :=
  decodeTableWord 16 0x00E0 = some .cls ∧ decodeTableWord 16 0x0120 = some .cls ∧
  decodeTableWord 16 0x012E = some .ret ∧ decodeTableWord 16 0x0ABC = some (.nop 0x0ABC) ∧
  decodeTableWord 16 0x2ABC = some (.call 0xABC) ∧ decodeTableWord 16 0x3A42 = some (.seByte 0xA 0x42) ∧
  decodeTableWord 16 0x512F = some (.seReg 1 2) ∧ decodeTableWord 16 0x8014 = some (.addReg 0 1) ∧
  decodeTableWord 16 0x8125 = some (.subReg 1 2) ∧ decodeTableWord 16 0x8127 = some (.subnReg 1 2) ∧
  decodeTableWord 16 0xB123 = some (.jpV0 0x123) ∧ decodeTableWord 16 0xC30F = some (.rnd 3 0x0F) ∧
  decodeTableWord 16 0xD125 = some (.drw 1 2 5) ∧ decodeTableWord 16 0xE20E = some (.skp 2) ∧
  decodeTableWord 16 0xE201 = some (.sknp 2) ∧ decodeTableWord 16 0xF21E = some (.addI 2) ∧
  decodeTableWord 16 0xF255 = some (.stRegs 2) ∧ decodeTableWord 16 0xF285 = some (.nop 0xF285)

/-! ## The cycle -/

/-- R100 to R105: a cycle of a running core whose two bytes at `pc` decode to `i` runs `i` on the state with `pc` advanced
and `opcode` set. If the handler leaves the core running, both timers then tick and the next inputs are taken; if it raises
a fault, the fault is taken from the state before the cycle (decision D4). The inputs are the model's own fields (log 2). -/
def Obligations.StepRunsTheDecodedInstruction : Prop :=
  ∀ (s : State) (i : Instr), s.status = .running → s.pc.toNat ≤ 0xFFE →
    decode [s.mem.read s.pc.toNat, s.mem.read (s.pc.toNat + 1)] = .ok (i, []) →
    ∃ u, exec i { s with pc := s.pc + 2, opcode := s.wordAtPc } = .next u ∧
      (u.status = .running → ∃ t, step s = .next t ∧
        t.DT.toNat = u.DT.toNat - 1 ∧ t.ST.toNat = u.ST.toNat - 1 ∧ t.cycles = u.cycles + 1 ∧
        (∀ c rest, u.pending = c :: rest → t.key = c.key ∧ t.rnd = c.rnd ∧ t.pending = rest) ∧
        UnchangedButList [.delay, .sound, .input] u t) ∧
      (∀ c, u.status = .faulted c → step s = .next { s with status := .faulted c })

/-- R80, R100, R204 (decision D4; log 3): a cycle always answers a next state, in every state: no decode fails
and every fault is taken. -/
def Obligations.EveryStepAnswersANextState : Prop := ∀ s : State, ∃ t, step s = .next t

/-- R101: the fetch is big-endian, needs no alignment (decision D21), and faults beyond 0xFFE with nothing else happening
(decision D9). -/
def Obligations.FetchIsBigEndianAndFaultsBeyondMemory : Prop :=
  ∀ s : State, s.status = .running →
    (0xFFE < s.pc.toNat → step s = .next { s with status := .faulted (.fetchAddress s.pc) }) ∧
    (s.pc.toNat ≤ 0xFFE → ∀ t, step s = .next t → t.status = .running →
      t.opcode.toNat = 256 * (s.mem.read s.pc.toNat).toNat + (s.mem.read (s.pc.toNat + 1)).toNat)

/-- R106 (decision D4 of the spec): a cycle that faults changes nothing but the status, and a faulted core does nothing, so
only reset leaves that status. -/
def Obligations.FaultsArePreciseAndTerminal : Prop :=
  (∀ (s t : State) (c : Fault), s.status = .running → step s = .next t → t.status = .faulted c →
    t = { s with status := .faulted c }) ∧
  (∀ (s : State) (c : Fault), s.status = .faulted c → step s = .next s)

/-- R200, R201 (decisions D4 to D10): which cycle can raise which fault, the condition that held before it, and what it
records. A memory fault records the first address beyond memory, which is one the instruction accesses; a framebuffer fault
the cell of a set sprite bit (bit order: log 7). -/
def Obligations.FaultsComeOnlyFromTheListedCauses : Prop :=
  ∀ (s t : State) (c : Fault), s.status = .running → step s = .next t → t.status = .faulted c →
    match c with
    | .fetchAddress p => 0xFFE < s.pc.toNat ∧ p = s.pc
    | .stackOverflow => s.pc.toNat ≤ 0xFFE ∧ (decodeWord s.wordAtPc).mnemonic = .CALL_addr ∧ s.sp.val = 16
    | .stackUnderflow => s.pc.toNat ≤ 0xFFE ∧ (decodeWord s.wordAtPc).mnemonic = .RET ∧ s.sp.val = 0
    | .memAddress a => s.pc.toNat ≤ 0xFFE ∧ a = max s.I.toNat 0x1000 ∧ a < s.I.toNat +
        (match decodeWord s.wordAtPc with
          | .drw _ _ n => n.toNat
          | .ldB _ => 3
          | .stRegs x => x.val + 1
          | .ldRegs x => x.val + 1
          | _ => 0)
    | .framebufferIndex idx => s.pc.toNat ≤ 0xFFE ∧ 2047 < idx ∧
        ∃ x y n, decodeWord s.wordAtPc = .drw x y n ∧ SpriteCell s x y n idx
    | .keyIndex k => s.pc.toNat ≤ 0xFFE ∧ 15 < k.toNat ∧
        ∃ x, k = s.getV x ∧ (decodeWord s.wordAtPc = .skp x ∨ decodeWord s.wordAtPc = .sknp x)

/-- R105: both timers go down by 1, stopping at 0, once per completed cycle, whichever instruction it executed; the tick
comes after the handler, so a timer written in the cycle loses one count at once. -/
def Obligations.BothTimersTickOncePerCompletedCycle : Prop :=
  ∀ s t : State, s.status = .running → step s = .next t → t.status = .running →
    t.DT.toNat = (match decodeWord s.wordAtPc with | .ldDTVx x => (s.getV x).toNat | _ => s.DT.toNat) - 1 ∧
    t.ST.toNat = (match decodeWord s.wordAtPc with | .ldSTVx x => (s.getV x).toNat | _ => s.ST.toNat) - 1

/-- R105: after `n` completed cycles that do not write `DT`, a start value `D` has become `max(D - n, 0)`. -/
def Obligations.DelayTimerAfterManyCycles : Prop :=
  ∀ (n : Nat) (s t : State), Host.Core.run core n s = .next t → t.status = .running →
    (∀ k u x, k < n → Host.Core.run core k s = .next u → decodeWord u.wordAtPc ≠ .ldDTVx x) →
    t.DT.toNat = s.DT.toNat - n

/-- R24 (decision D23 for the unmasked `pc`): what every completed cycle does to `pc`, instruction by instruction. -/
def Obligations.ProgramCounterAfterACycle : Prop :=
  ∀ s t : State, s.status = .running → step s = .next t → t.status = .running →
    t.pc.toNat = match decodeWord s.wordAtPc with
      | .jp nnn => nnn.toNat
      | .call nnn => nnn.toNat
      | .ret => (s.stack.toList.getD (s.sp.val - 1) 0).toNat
      | .jpV0 nnn => (s.getV 0).toNat + nnn.toNat
      | .seByte x kk => s.pc.toNat + if s.getV x = kk then 4 else 2
      | .sneByte x kk => s.pc.toNat + if s.getV x = kk then 2 else 4
      | .seReg x y => s.pc.toNat + if s.getV x = s.getV y then 4 else 2
      | .sneReg x y => s.pc.toNat + if s.getV x = s.getV y then 2 else 4
      | .skp x => s.pc.toNat + if s.key.getLsbD (s.getV x).toNat then 4 else 2
      | .sknp x => s.pc.toNat + if s.key.getLsbD (s.getV x).toNat then 2 else 4
      | .ldVxK _ => s.pc.toNat + if s.key = 0 then 0 else 2
      | _ => s.pc.toNat + 2

/-- R108 (decisions D15, D27): only `SKP`, `SKNP` and `LD Vx, K` look at `key`, only `RND` at
`rnd`, and no handler changes either. -/
def Obligations.OnlyTheListedInstructionsReadTheInputs : Prop :=
  ∀ (i : Instr) (s t : State), exec i s = .next t →
    t.key = s.key ∧ t.rnd = s.rnd ∧
    (i.mnemonic ∉ [.SKP_Vx, .SKNP_Vx, .LD_Vx__K] →
      ∀ k, exec i { s with key := k } = .next { t with key := k }) ∧
    (i.mnemonic ≠ .RND_Vx__byte → ∀ r, exec i { s with rnd := r } = .next { t with rnd := r })

/-! ## Who reaches which state -/

/-- R65: the framebuffer is reached only by `CLS` and `DRW`, the keypad only by `SKP`, `SKNP` and `LD Vx, K`, `DT` only by
`LD Vx, DT` and `LD DT, Vx`, `ST` only by `LD ST, Vx`. That an instruction does not reach a field says that with another
value in it the instruction does the same and leaves that value. -/
def Obligations.DevicesAreReachedOnlyByTheirInstructions : Prop :=
  ∀ (i : Instr) (s t : State), exec i s = .next t →
    (i.mnemonic ∉ [.CLS, .DRW_Vx__Vy__n] → ∀ fb, exec i { s with fb := fb } = .next { t with fb := fb }) ∧
    (i.mnemonic ∉ [.SKP_Vx, .SKNP_Vx, .LD_Vx__K] → ∀ k, exec i { s with key := k } = .next { t with key := k }) ∧
    (i.mnemonic ∉ [.LD_Vx__DT, .LD_DT__Vx] → ∀ d, exec i { s with DT := d } = .next { t with DT := d }) ∧
    (i.mnemonic ≠ .LD_ST__Vx → ∀ d, exec i { s with ST := d } = .next { t with ST := d })

/-- R25, R64: no instruction other than `CALL` and `RET` reaches the call stack or its pointer; `RET` leaves every slot as
it was, `CALL` every slot but `stack[sp]`. -/
def Obligations.CallStackIsReachedOnlyByCallAndRet : Prop :=
  ∀ (i : Instr) (s t : State), exec i s = .next t →
    (i.mnemonic ∉ [.CALL_addr, .RET] → ∀ st p,
      exec i { s with stack := st, sp := p } = .next { t with stack := st, sp := p }) ∧
    (i.mnemonic = .RET → t.stack = s.stack) ∧
    (i.mnemonic = .CALL_addr → ∀ k : Fin 16, k.val ≠ s.sp.val → t.stack[k] = s.stack[k])

/-- R20, R23: which handlers write memory, `I`, `pc` and the status; no handler writes `opcode`. -/
def Obligations.OnlyTheListedInstructionsWriteEachPart : Prop :=
  ∀ (i : Instr) (s t : State), exec i s = .next t →
    (t.mem ≠ s.mem → i.mnemonic ∈ [.LD_B__Vx, .LD__I___Vx]) ∧
    (t.I ≠ s.I → i.mnemonic ∈ [.LD_I__addr, .ADD_I__Vx, .LD_F__Vx]) ∧
    (t.pc ≠ s.pc → i.mnemonic ∈ [.JP_addr, .CALL_addr, .RET, .JP_V0__addr, .SE_Vx__byte, .SNE_Vx__byte, .SE_Vx__Vy,
      .SNE_Vx__Vy, .SKP_Vx, .SKNP_Vx, .LD_Vx__K]) ∧
    (t.status ≠ s.status → i.mnemonic ∈ [.RET, .CALL_addr, .DRW_Vx__Vy__n, .LD_B__Vx, .LD__I___Vx, .LD_Vx___I, .SKP_Vx,
      .SKNP_Vx]) ∧
    t.opcode = s.opcode

/-- R22: six instructions write VF as a flag; every other leaves it alone unless it names VF as its destination. -/
def Obligations.FlagRegisterChangesOnlyWhereStated : Prop :=
  ∀ (i : Instr) (s t : State), exec i s = .next t → t.getV 15 ≠ s.getV 15 →
    i.mnemonic ∈ [.ADD_Vx__Vy, .SUB_Vx__Vy, .SHR_Vx, .SUBN_Vx__Vy, .SHL_Vx, .DRW_Vx__Vy__n] ∨
    (∃ kk, i = .ldByte 15 kk ∨ i = .addByte 15 kk ∨ i = .rnd 15 kk) ∨
    (∃ y, i = .ldReg 15 y ∨ i = .orReg 15 y ∨ i = .andReg 15 y ∨ i = .xorReg 15 y) ∨
    i = .ldVxDT 15 ∨ i = .ldVxK 15 ∨ i = .ldRegs 15

/-! ## Register loads, arithmetic, logic (at the level of exec) -/

/-- R140, its encoding included (the source's own examples `6005` and `6103` fix it). -/
def Obligations.LoadByteCompletes : Prop :=
  (∀ (w : Word), w &&& 0xF000 = 0x6000 → decodeWord w = .ldByte (xField w) (kkField w)) ∧
  ∀ (s : State) (x : Reg) (kk : Byte), ∃ t, exec (.ldByte x kk) s = .next t ∧ t.getV x = kk ∧
    UnchangedButList [.reg x] s t

/-- R142, R182: the register move and the read of the delay timer. -/
def Obligations.RegisterMovesComplete : Prop :=
  ∀ (s : State) (x y : Reg),
    (∃ t, exec (.ldReg x y) s = .next t ∧ t.getV x = s.getV y ∧ UnchangedButList [.reg x] s t) ∧
    (∃ t, exec (.ldVxDT x) s = .next t ∧ t.getV x = s.DT ∧ UnchangedButList [.reg x] s t)

/-- R151 (decision D15): the random byte of the cycle, whatever it is, under the mask. -/
def Obligations.RandomByteCompletes : Prop :=
  ∀ (s : State) (x : Reg) (kk : Byte), ∃ t, exec (.rnd x kk) s = .next t ∧
    (∀ j, j < 8 → (t.getV x).getLsbD j = (s.rnd.getLsbD j && kk.getLsbD j)) ∧ UnchangedButList [.reg x] s t

/-- R141: wraps mod 256, no flag. -/
def Obligations.AddByteCompletes : Prop :=
  ∀ (s : State) (x : Reg) (kk : Byte), ∃ t, exec (.addByte x kk) s = .next t ∧
    (t.getV x).toNat = ((s.getV x).toNat + kk.toNat) % 256 ∧ UnchangedButList [.reg x] s t

/-- R143 to R145: bit by bit; VF is not touched (the spec derives that from the source's effect column). -/
def Obligations.LogicCompletes : Prop :=
  ∀ (s : State) (x y : Reg),
    (∃ t, exec (.orReg x y) s = .next t ∧
      (∀ j, j < 8 → (t.getV x).getLsbD j = ((s.getV x).getLsbD j || (s.getV y).getLsbD j)) ∧
      UnchangedButList [.reg x] s t) ∧
    (∃ t, exec (.andReg x y) s = .next t ∧
      (∀ j, j < 8 → (t.getV x).getLsbD j = ((s.getV x).getLsbD j && (s.getV y).getLsbD j)) ∧
      UnchangedButList [.reg x] s t) ∧
    (∃ t, exec (.xorReg x y) s = .next t ∧
      (∀ j, j < 8 → (t.getV x).getLsbD j = ((s.getV x).getLsbD j ^^ (s.getV y).getLsbD j)) ∧
      UnchangedButList [.reg x] s t)

/-- R146, its encoding included (the source's own example `8014` fixes it): the sum, and the carry in VF. With `x = 0xF` the
flag write comes last, so VF ends as the carry and the sum is lost. -/
def Obligations.AddRegistersCompletes : Prop :=
  (∀ (w : Word), w &&& 0xF00F = 0x8004 → decodeWord w = .addReg (xField w) (yField w)) ∧
  ∀ (s : State) (x y : Reg), ∃ t, exec (.addReg x y) s = .next t ∧
    (x ≠ 15 → (t.getV x).toNat = ((s.getV x).toNat + (s.getV y).toNat) % 256) ∧
    (t.getV 15).toNat = (if 255 < (s.getV x).toNat + (s.getV y).toNat then 1 else 0) ∧
    UnchangedButList [.reg x, .reg 15] s t

/-- R147, R153 (decision D12 for the cases with VF as an operand): `c` is the flag, the strict unsigned comparison; it is
written first, and the subtraction reads the registers as the flag left them. -/
def Obligations.SubtractCompletes : Prop :=
  ∀ (s : State) (x y : Reg), ∃ t, exec (.subReg x y) s = .next t ∧ UnchangedButList [.reg x, .reg 15] s t ∧
    let c : Nat := if (s.getV y).toNat < (s.getV x).toNat then 1 else 0
    (x ≠ 15 → (t.getV 15).toNat = c) ∧
    (x ≠ 15 → y ≠ 15 → (t.getV x).toNat = ((s.getV x).toNat + 256 - (s.getV y).toNat) % 256) ∧
    (x ≠ 15 → y = 15 → (t.getV x).toNat = ((s.getV x).toNat + 256 - c) % 256) ∧
    (x = 15 → y ≠ 15 → (t.getV 15).toNat = (c + 256 - (s.getV y).toNat) % 256) ∧
    (x = 15 → y = 15 → (t.getV 15).toNat = 0)

/-- R149, R153 (decision D12): the reverse subtraction. -/
def Obligations.ReverseSubtractCompletes : Prop :=
  ∀ (s : State) (x y : Reg), ∃ t, exec (.subnReg x y) s = .next t ∧ UnchangedButList [.reg x, .reg 15] s t ∧
    let c : Nat := if (s.getV x).toNat < (s.getV y).toNat then 1 else 0
    (x ≠ 15 → (t.getV 15).toNat = c) ∧
    (x ≠ 15 → y ≠ 15 → (t.getV x).toNat = ((s.getV y).toNat + 256 - (s.getV x).toNat) % 256) ∧
    (x ≠ 15 → y = 15 → (t.getV x).toNat = (c + 256 - (s.getV x).toNat) % 256) ∧
    (x = 15 → y ≠ 15 → (t.getV 15).toNat = ((s.getV y).toNat + 256 - c) % 256) ∧
    (x = 15 → y = 15 → (t.getV 15).toNat = 0)

/-- R148, R150, R153 (decision D12 for `x = 0xF`): the bit shifted out goes to VF, the shift is in place on V[x]. -/
def Obligations.ShiftsComplete : Prop :=
  ∀ (s : State) (x : Reg),
    (∃ t, exec (.shr x) s = .next t ∧ UnchangedButList [.reg x, .reg 15] s t ∧
      (x ≠ 15 → (t.getV x).toNat = (s.getV x).toNat / 2 ∧ (t.getV 15).toNat = (s.getV x).toNat % 2) ∧
      (x = 15 → (t.getV 15).toNat = 0)) ∧
    (∃ t, exec (.shl x) s = .next t ∧ UnchangedButList [.reg x, .reg 15] s t ∧
      (x ≠ 15 → (t.getV x).toNat = 2 * (s.getV x).toNat % 256 ∧ (t.getV 15).toNat = (s.getV x).toNat / 128) ∧
      (x = 15 → (t.getV 15).toNat = 2 * ((s.getV x).toNat / 128)))

/-! ## Control flow (at the level of exec: `pc` is already the address of the following instruction) -/

/-- R121, R127: the target is not reduced mod 4096 (decision D23). -/
def Obligations.JumpsComplete : Prop :=
  ∀ (s : State) (nnn : Addr),
    (∃ t, exec (.jp nnn) s = .next t ∧ t.pc.toNat = nnn.toNat ∧ UnchangedButList [.pc] s t) ∧
    (∃ t, exec (.jpV0 nnn) s = .next t ∧ t.pc.toNat = (s.getV 0).toNat + nnn.toNat ∧ UnchangedButList [.pc] s t)

/-- R122, R120, R26: a call with a free slot pushes the advanced `pc` and jumps; a return from a non-empty stack pops. -/
def Obligations.CallAndReturnComplete : Prop :=
  (∀ (s : State) (nnn : Addr) (h : s.sp.val < 16), ∃ t, exec (.call nnn) s = .next t ∧
    t.stack[s.sp.val] = s.pc ∧ t.sp.val = s.sp.val + 1 ∧ t.pc.toNat = nnn.toNat ∧
    UnchangedButList [.slot ⟨s.sp.val, h⟩, .sp, .pc] s t) ∧
  (∀ (s : State) (k : Fin 16), s.sp.val = k.val + 1 → ∃ t, exec .ret s = .next t ∧
    t.pc = s.stack[k] ∧ t.sp.val = k.val ∧ UnchangedButList [.sp, .pc] s t)

/-- R122, R120 (decisions D5, D6): the seventeenth nested call and the return from an empty stack take their faults, with
nothing changed but the status. -/
def Obligations.CallStackFaults : Prop :=
  (∀ (s : State) (nnn : Addr), s.sp.val = 16 →
    exec (.call nnn) s = .next { s with status := .faulted .stackOverflow }) ∧
  (∀ s : State, s.sp.val = 0 → exec .ret s = .next { s with status := .faulted .stackUnderflow })

/-- R120: `CALL addr` then `RET` restores `pc` to the instruction after the call, whatever the subroutine has done to every
part of the state but the stack and its pointer. -/
def Obligations.ReturnRestoresTheCallersProgramCounter : Prop :=
  ∀ (s t u : State) (nnn : Addr), s.sp.val < 16 → exec (.call nnn) s = .next t →
    u.stack = t.stack → u.sp = t.sp → ∃ r, exec .ret u = .next r ∧ r.pc = s.pc ∧ r.sp = s.sp

/-- R123 to R126: a skip adds 2 to the advanced `pc` if the condition holds. -/
def Obligations.SkipsComplete : Prop :=
  ∀ (s : State) (x y : Reg) (kk : Byte),
    (∃ t, exec (.seByte x kk) s = .next t ∧ t.pc = (if s.getV x = kk then s.pc + 2 else s.pc) ∧
      UnchangedButList [.pc] s t) ∧
    (∃ t, exec (.sneByte x kk) s = .next t ∧ t.pc = (if s.getV x = kk then s.pc else s.pc + 2) ∧
      UnchangedButList [.pc] s t) ∧
    (∃ t, exec (.seReg x y) s = .next t ∧ t.pc = (if s.getV x = s.getV y then s.pc + 2 else s.pc) ∧
      UnchangedButList [.pc] s t) ∧
    (∃ t, exec (.sneReg x y) s = .next t ∧ t.pc = (if s.getV x = s.getV y then s.pc else s.pc + 2) ∧
      UnchangedButList [.pc] s t)

/-- R107: the no-op handler changes nothing, whatever its word. -/
def Obligations.NoOpChangesNothing : Prop := ∀ (s : State) (w : Word), exec (.nop w) s = .next s

/-! ## Keypad and timers (at the level of exec) -/

/-- R180, R181: with a key index up to 15 the skip follows the level of that key. -/
def Obligations.KeySkipsComplete : Prop :=
  ∀ (s : State) (x : Reg), (s.getV x).toNat ≤ 15 →
    (∃ t, exec (.skp x) s = .next t ∧
      t.pc = (if s.key.getLsbD (s.getV x).toNat then s.pc + 2 else s.pc) ∧ UnchangedButList [.pc] s t) ∧
    (∃ t, exec (.sknp x) s = .next t ∧
      t.pc = (if s.key.getLsbD (s.getV x).toNat then s.pc else s.pc + 2) ∧ UnchangedButList [.pc] s t)

/-- R180, R181 (decision D10): a key index above 15 is not masked; the fault records it. -/
def Obligations.KeySkipsFaultBeyondTheKeypad : Prop :=
  ∀ (s : State) (x : Reg), 15 < (s.getV x).toNat →
    exec (.skp x) s = .next { s with status := .faulted (.keyIndex (s.getV x)) } ∧
    exec (.sknp x) s = .next { s with status := .faulted (.keyIndex (s.getV x)) }

/-- R183 (decision D14: the least pressed key): with a key pressed V[x] becomes the least index; with none, `pc` goes back
to the instruction's own address. -/
def Obligations.WaitForKeyCompletes : Prop :=
  (∀ (s : State) (x : Reg) (k : Nat), k < 16 → s.key.getLsbD k = true → (∀ j, j < k → s.key.getLsbD j = false) →
    ∃ t, exec (.ldVxK x) s = .next t ∧ (t.getV x).toNat = k ∧ UnchangedButList [.reg x] s t) ∧
  (∀ (s : State) (x : Reg), s.key = 0 →
    ∃ t, exec (.ldVxK x) s = .next t ∧ t.pc = s.pc - 2 ∧ UnchangedButList [.pc] s t)

/-- R183, R109: a cycle that waits for a key and finds none is a complete cycle that stays in place and ticks both timers. -/
def Obligations.WaitingForAKeyStaysInPlaceAndTicks : Prop :=
  ∀ (s : State) (x : Reg), s.NextRuns (.ldVxK x) → s.key = 0 → ∃ t, step s = .next t ∧
    t.DT.toNat = s.DT.toNat - 1 ∧ t.ST.toNat = s.ST.toNat - 1 ∧ t.opcode = s.wordAtPc ∧
    UnchangedButList [.delay, .sound, .opcode, .input] s t

/-- R184, R185: before the tick of the same cycle. -/
def Obligations.TimerWritesComplete : Prop :=
  ∀ (s : State) (x : Reg),
    (∃ t, exec (.ldDTVx x) s = .next t ∧ t.DT = s.getV x ∧ UnchangedButList [.delay] s t) ∧
    (∃ t, exec (.ldSTVx x) s = .next t ∧ t.ST = s.getV x ∧ UnchangedButList [.sound] s t)

/-! ## The index register and memory (at the level of exec) -/

/-- R160 to R162: 16 bits of the sum and no flag in `ADD I, Vx` (decision D11); the whole of V[x] in `LD F, Vx`. -/
def Obligations.IndexWritesComplete : Prop :=
  ∀ (s : State) (x : Reg) (nnn : Addr),
    (∃ t, exec (.ldI nnn) s = .next t ∧ t.I.toNat = nnn.toNat ∧ UnchangedButList [.index] s t) ∧
    (∃ t, exec (.addI x) s = .next t ∧ t.I.toNat = (s.I.toNat + (s.getV x).toNat) % 65536 ∧
      UnchangedButList [.index] s t) ∧
    (∃ t, exec (.ldF x) s = .next t ∧ t.I.toNat = 0x050 + 5 * (s.getV x).toNat ∧ UnchangedButList [.index] s t)

/-- R163 (decision D28: `I` keeps its value): three bytes, hundreds, tens and ones, from `I` on;
every other byte reads as before. -/
def Obligations.StoreDecimalCompletes : Prop :=
  ∀ (s : State) (x : Reg), s.I.toNat ≤ 0xFFD → ∃ t, exec (.ldB x) s = .next t ∧
    (t.mem.read s.I.toNat).toNat = (s.getV x).toNat / 100 ∧
    (t.mem.read (s.I.toNat + 1)).toNat = (s.getV x).toNat / 10 % 10 ∧
    (t.mem.read (s.I.toNat + 2)).toNat = (s.getV x).toNat % 10 ∧
    UnchangedBut (fun p => ∃ j, j < 3 ∧ p = .byte (s.I.toNat + j)) s t

/-- R164 (decision D28): V0 to Vx at `I` and on; every other byte reads as before. -/
def Obligations.StoreRegistersCompletes : Prop :=
  ∀ (s : State) (x : Reg), s.I.toNat + x.val ≤ 0xFFF → ∃ t, exec (.stRegs x) s = .next t ∧
    (∀ k : Reg, k ≤ x → t.mem.read (s.I.toNat + k.val) = s.getV k) ∧
    UnchangedBut (fun p => ∃ k : Reg, k ≤ x ∧ p = .byte (s.I.toNat + k.val)) s t

/-- R165 (decision D28): V0 to Vx from the bytes at `I` and on; no byte of memory changes. -/
def Obligations.LoadRegistersCompletes : Prop :=
  ∀ (s : State) (x : Reg), s.I.toNat + x.val ≤ 0xFFF → ∃ t, exec (.ldRegs x) s = .next t ∧
    (∀ k : Reg, k ≤ x → t.getV k = s.mem.read (s.I.toNat + k.val)) ∧
    UnchangedBut (fun p => ∃ k : Reg, k ≤ x ∧ p = .reg k) s t

/-- R55, R163 to R165 (decision D8): a data address above 0xFFF is not reduced; the fault names the first one, and not even
the bytes and registers in range are written. -/
def Obligations.DataAddressesBeyondMemoryFault : Prop :=
  ∀ (s : State) (x : Reg),
    (0xFFF < s.I.toNat + 2 →
      exec (.ldB x) s = .next { s with status := .faulted (.memAddress (max s.I.toNat 0x1000)) }) ∧
    (0xFFF < s.I.toNat + x.val →
      exec (.stRegs x) s = .next { s with status := .faulted (.memAddress (max s.I.toNat 0x1000)) } ∧
      exec (.ldRegs x) s = .next { s with status := .faulted (.memAddress (max s.I.toNat 0x1000)) })

/-- R60, R164, R165: storing V0 to Vx and loading them again gives them back, whatever the registers hold in between. -/
def Obligations.LoadAfterStoreRestoresRegisters : Prop :=
  ∀ (s t : State) (x : Reg) (V : Vector Byte 16), s.I.toNat + x.val ≤ 0xFFF → exec (.stRegs x) s = .next t →
    ∃ u, exec (.ldRegs x) { t with V := V } = .next u ∧ ∀ k : Reg, k ≤ x → u.getV k = s.getV k

/-- R62: a store over the following instruction is what the very next cycle fetches. -/
def Obligations.StoredBytesAreFetchedByTheNextCycle : Prop :=
  ∀ (s t u : State) (x : Reg), s.status = .running → 1 ≤ x.val → s.I = s.pc → s.I.toNat + x.val ≤ 0xFFF →
    exec (.stRegs x) s = .next t → step t = .next u → u.status = .running →
    u.opcode.toNat = 256 * (s.getV 0).toNat + (s.getV 1).toNat

/-! ## The framebuffer (at the level of exec) -/

/-- R170, its encoding included (the source's own example `00E0` fixes it). -/
def Obligations.ClearScreenCompletes : Prop :=
  (∀ (w : Word), w &&& 0xF00F = 0x0000 → decodeWord w = .cls) ∧
  ∀ s : State, ∃ t, exec .cls s = .next t ∧ (∀ i, i < 2048 → t.pixel i = false) ∧
    UnchangedBut (fun p => ∃ i, p = .cell i) s t

/-- R171: a sprite that fits flips exactly the cells its set bits land on, and VF says whether one of them was lit. The
bit order is the spec's from general knowledge (log 7); with VF as `x` or `y` the anchor is read first (decision D13). -/
def Obligations.DrawCompletes : Prop :=
  ∀ (s : State) (x y : Reg) (n : Nibble), SpriteFits s x y n → ∃ t, exec (.drw x y n) s = .next t ∧
    (∀ i, SpriteCell s x y n i → t.pixel i = !s.pixel i) ∧
    ((∃ i, SpriteCell s x y n i ∧ s.pixel i = true) → t.getV 15 = 1) ∧
    ((∀ i, SpriteCell s x y n i → s.pixel i = false) → t.getV 15 = 0) ∧
    UnchangedBut (fun p => p = .reg 15 ∨ ∃ i, SpriteCell s x y n i ∧ p = .cell i) s t

/-- R171, R205 (decisions D7, D8, D25): the first condition met, row by row and in a row from column 0 to 7, is the fault
taken, and nothing changes but the status. That column `c` is bit `7 - c` is the spec's from general knowledge (log 7). -/
def Obligations.DrawFaultsAtTheFirstConditionMet : Prop :=
  ∀ (s : State) (x y : Reg) (n : Nibble) (row : Nat),
    let bit : Nat → Nat → Bool := fun r c => (s.mem.read (s.I.toNat + r)).getLsbD (7 - c)
    let idx : Nat → Nat → Nat := fun r c => ((s.getV y).toNat % 32 + r) * 64 + ((s.getV x).toNat % 64 + c)
    row < n.toNat → (∀ r, r < row → s.I.toNat + r ≤ 0xFFF) →
    (∀ r c, r < row → c < 8 → bit r c = true → idx r c ≤ 2047) →
    (0xFFF < s.I.toNat + row →
      exec (.drw x y n) s = .next { s with status := .faulted (.memAddress (s.I.toNat + row)) }) ∧
    (∀ col, s.I.toNat + row ≤ 0xFFF → col < 8 → bit row col = true → 2047 < idx row col →
      (∀ c, c < col → bit row c = true → idx row c ≤ 2047) →
      exec (.drw x y n) s = .next { s with status := .faulted (.framebufferIndex (idx row col)) })

/-- R171: drawing the same sprite twice at the same anchor restores the framebuffer. The second draw sets VF exactly if one
of the sprite's cells was dark before the first: that is read from the pseudocode of R171 and departs from its remark (log
10), which agrees on a dark screen. Which cells are the sprite's rests on the bit order (log 7). -/
def Obligations.DrawingTwiceRestoresTheFramebuffer : Prop :=
  ∀ (s t : State) (x y : Reg) (n : Nibble), x ≠ 15 → y ≠ 15 → SpriteFits s x y n → exec (.drw x y n) s = .next t →
    ∃ u, exec (.drw x y n) t = .next u ∧ (∀ i, i < 2048 → u.pixel i = s.pixel i) ∧
      (u.getV 15 = 1 ↔ ∃ i, SpriteCell s x y n i ∧ s.pixel i = false)

/-! ## The host, and the end of a run -/

/-- R221 (decision D17): `load` copies the image to 0x200 and on and changes nothing else; an empty or over-long image is a
LoadError and changes nothing. -/
def Obligations.LoadCopiesTheImage : Prop :=
  ∀ (s : State) (bytes : List Byte),
    (1 ≤ bytes.length → bytes.length ≤ 3584 → ∃ t, s.load bytes = .ok t ∧
      (∀ j (h : j < bytes.length), t.mem.read (0x200 + j) = bytes[j]) ∧
      UnchangedBut (fun p => ∃ j, j < bytes.length ∧ p = .byte (0x200 + j)) s t) ∧
    (bytes.length = 0 ∨ 3584 < bytes.length → ∃ e, s.load bytes = .error e)

/-- R224 (decision D26): once a program has ended at `h`, no later cycle changes `V`, `I`, `pc`, `sp`, `stack`, `mem` or
`fb`, and it stays ended. -/
def Obligations.EndedProgramsStayEnded : Prop :=
  ∀ (n h : Nat) (s t : State), s.EndedAt h → Host.Core.run core n s = .next t →
    t.EndedAt h ∧ UnchangedButList [.delay, .sound, .opcode, .input] s t
end

