-- ==== Sys2Proof/Laws/Memory.lean ====
section
/-! SUPPORT. The laws of the byte array: read after write, and that every operation keeps the canonical form. -/

namespace Sys2Proof.Machine

@[simp] theorem read_nil (a : Nat) : Memory.read [] a = Memory.background a := rfl

/-- In the glyph table an unlisted address reads as `GLYPHS` (R34, R52). -/
theorem background_glyph (j : Fin 80) : Memory.background (0x050 + j.val) = Config.glyphs j := by
  have h : Config.glyphBase ≤ 0x050 + j.val ∧ 0x050 + j.val < Config.glyphBase + 80 := by unfold Config.glyphBase; omega
  simp only [Memory.background, dif_pos h]
  congr 1
  ext
  simp [Config.glyphBase]

/-- Outside the glyph table an unlisted address reads as 0 (R34). -/
theorem background_zero (a : Nat) (h : a < 0x050 ∨ 0x0A0 ≤ a) : Memory.background a = 0 := by
  have : ¬ (Config.glyphBase ≤ a ∧ a < Config.glyphBase + 80) := by unfold Config.glyphBase; omega
  simp only [Memory.background, dif_neg this]

/-- After reset the bytes of the glyph table are those of a given table, if `GLYPHS` is that table. -/
theorem read_reset_glyph (g : List Byte) (hg : GlyphsAre g) (j : Fin 80) :
    g[j.val]? = some (State.reset.mem.read (0x050 + j.val)) := by
  rw [hg j, ← background_glyph]; rfl

theorem read_erase (m : Memory) (a b : Nat) :
    (m.erase a).read b = if b = a then Memory.background b else m.read b := by
  induction m with
  | nil => simp [Memory.erase, Memory.read]
  | cons c m ih =>
    obtain ⟨k, v⟩ := c
    unfold Memory.erase at ih ⊢
    by_cases hk : k = a
    · subst hk
      simp only [List.filter_cons, ne_eq, not_true_eq_false, decide_false, Bool.false_eq_true, if_false, ih, Memory.read]
      split <;> simp_all
    · simp only [List.filter_cons, ne_eq, hk, not_false_eq_true, decide_true, if_true, Memory.read, ih]
      split <;> split <;> simp_all

theorem read_insert (m : Memory) (a b : Nat) (v : Byte) (h : ∀ c ∈ m, c.1 ≠ a) :
    (m.insert a v).read b = if b = a then v else m.read b := by
  induction m with
  | nil => simp [Memory.insert, Memory.read]
  | cons c m ih =>
    obtain ⟨k, w⟩ := c
    have hk : k ≠ a := h (k, w) (by simp)
    have ih' := ih (fun c hc => h c (by simp [hc]))
    simp only [Memory.insert]
    split
    · simp [Memory.read]
    · simp only [Memory.read, ih']
      split <;> split <;> simp_all

theorem not_listed_erase (m : Memory) (a : Nat) : ∀ c ∈ m.erase a, c.1 ≠ a := by
  intro c hc
  simpa [Memory.erase] using (List.mem_filter.mp hc).2

/-- What a write does to every address (R54). It holds of every list, canonical or not. -/
theorem read_write (m : Memory) (a b : Nat) (v : Byte) :
    (m.write a v).read b = if b = a then v else m.read b := by
  unfold Memory.write
  split
  · next h => rw [read_erase]; split <;> simp_all
  · rw [read_insert _ _ _ _ (not_listed_erase m a), read_erase]; split <;> simp_all

@[simp] theorem read_write_same (m : Memory) (a : Nat) (v : Byte) : (m.write a v).read a = v := by simp [read_write]

theorem read_write_other (m : Memory) (a b : Nat) (v : Byte) (h : b ≠ a) : (m.write a v).read b = m.read b := by
  simp [read_write, h]

/-- What writing some bytes at ascending addresses does to every address. -/
theorem read_writeList (vs : List Byte) : ∀ (m : Memory) (a b : Nat),
    (m.writeList a vs).read b = if a ≤ b then (vs[b - a]?).getD (m.read b) else m.read b := by
  induction vs with
  | nil => intro m a b; simp [Memory.writeList]
  | cons v vs ih =>
    intro m a b
    rw [Memory.writeList, ih, read_write]
    by_cases h : a + 1 ≤ b
    · have h1 : a ≤ b := by omega
      have h2 : b ≠ a := by omega
      have h3 : b - a = (b - (a + 1)) + 1 := by omega
      simp [h, h1, h2, h3]
    · by_cases h2 : b = a
      · subst h2; simp
      · have h1 : ¬ a ≤ b := by omega
        simp [h, h1, h2]

/-! ## The canonical form -/

theorem wf_nil : Memory.wf [] := by simp [Memory.wf]

theorem wf_erase (m : Memory) (a : Nat) (h : m.wf) : (m.erase a).wf :=
  ⟨h.1.filter _, fun c hc => h.2 c (List.mem_filter.mp hc).1⟩

theorem mem_insert (m : Memory) (a : Nat) (v : Byte) (c : Host.Cell) : c ∈ m.insert a v ↔ c = (a, v) ∨ c ∈ m := by
  induction m with
  | nil => simp [Memory.insert]
  | cons d m ih =>
    obtain ⟨k, w⟩ := d
    simp only [Memory.insert]
    split
    · simp
    · simp only [List.mem_cons, ih]; tauto

theorem pairwise_insert (m : Memory) (a : Nat) (v : Byte) (h : m.Pairwise (fun c d => c.1 < d.1))
    (hn : ∀ c ∈ m, c.1 ≠ a) : (m.insert a v).Pairwise (fun c d => c.1 < d.1) := by
  induction m with
  | nil => simp [Memory.insert]
  | cons d m ih =>
    obtain ⟨k, w⟩ := d
    have hk : k ≠ a := hn (k, w) (by simp)
    rw [List.pairwise_cons] at h
    simp only [Memory.insert]
    split
    · next hlt =>
      refine List.pairwise_cons.mpr ⟨fun c hc => ?_, List.pairwise_cons.mpr h⟩
      rcases List.mem_cons.mp hc with rfl | hc
      · exact hlt
      · exact lt_trans hlt (h.1 c hc)
    · next hlt =>
      refine List.pairwise_cons.mpr ⟨fun c hc => ?_, ih h.2 (fun c hc => hn c (by simp [hc]))⟩
      rcases (mem_insert m a v c).mp hc with rfl | hc
      · show k < a; omega
      · exact h.1 c hc

/-- A write below 4096 keeps the canonical form. -/
theorem wf_write (m : Memory) (a : Nat) (v : Byte) (h : m.wf) (ha : a < 4096) : (m.write a v).wf := by
  unfold Memory.write
  split
  · exact wf_erase m a h
  · next hv =>
    have he := wf_erase m a h
    refine ⟨pairwise_insert _ _ _ he.1 (not_listed_erase m a), fun c hc => ?_⟩
    rcases (mem_insert _ _ _ _).mp hc with rfl | hc
    · exact ⟨ha, hv⟩
    · exact he.2 c hc

/-- A list of writes below 4096 keeps the canonical form. -/
theorem wf_writeList (vs : List Byte) : ∀ (m : Memory) (a : Nat), m.wf → a + vs.length ≤ 4096 → (m.writeList a vs).wf := by
  induction vs with
  | nil => intro m a h _; exact h
  | cons v vs ih =>
    intro m a h ha
    simp only [List.length_cons] at ha
    exact ih _ _ (wf_write m a v h (by omega)) (by omega)

/-! ## Range-checked access: everything the operations can answer -/

theorem readByte_in (s : State) (a : Nat) (h : a ≤ 0xFFF) : readByte s a = .ok (s.mem.read a) := by simp [readByte, h]

theorem readByte_out (s : State) (a : Nat) (h : 0xFFF < a) : readByte s a = .error (.memAddress a) := by
  simp [readByte, Nat.not_le.mpr h]

/-- All the bytes in range: the result is one list of writes. -/
theorem writeBytes_in (vs : List Byte) : ∀ (s : State) (a : Nat), a + vs.length ≤ 0x1000 →
    writeBytes s a vs = .ok { s with mem := s.mem.writeList a vs } := by
  induction vs with
  | nil => intro s a _; rfl
  | cons v vs ih =>
    intro s a h
    simp only [List.length_cons] at h
    have ha : a ≤ 0xFFF := by omega
    simp only [writeBytes, writeByte, ha, if_true]
    rw [ih _ _ (by omega)]; rfl

/-- Some byte out of range: the fault names the first such address. -/
theorem writeBytes_out (vs : List Byte) : ∀ (s : State) (a : Nat), 0x1000 < a + vs.length → vs ≠ [] →
    writeBytes s a vs = .error (.memAddress (max a 0x1000)) := by
  induction vs with
  | nil => intro s a _ h; exact absurd rfl h
  | cons v vs ih =>
    intro s a h _
    simp only [List.length_cons] at h
    by_cases ha : a ≤ 0xFFF
    · simp only [writeBytes, writeByte, ha, if_true]
      have hne : vs ≠ [] := by rintro rfl; simp at h; omega
      rw [ih _ _ (by omega) hne, Nat.max_eq_right (by omega), Nat.max_eq_right (by omega)]
    · simp only [writeBytes, writeByte, ha, if_false]
      rw [Nat.max_eq_left (by omega)]

end Sys2Proof.Machine
end

