-- ==== Sys2Proof/Laws/State.lean ====
section
/-! SUPPORT. One lemma for each field and each named update of State, so that no proof unfolds a record update. -/

namespace Sys2Proof.Machine

/-! `takeFault` -/

@[simp] theorem takeFault_mem (c : Fault) (s : State) : (takeFault c s).mem = s.mem := rfl
@[simp] theorem takeFault_V (c : Fault) (s : State) : (takeFault c s).V = s.V := rfl
@[simp] theorem takeFault_I (c : Fault) (s : State) : (takeFault c s).I = s.I := rfl
@[simp] theorem takeFault_pc (c : Fault) (s : State) : (takeFault c s).pc = s.pc := rfl
@[simp] theorem takeFault_stack (c : Fault) (s : State) : (takeFault c s).stack = s.stack := rfl
@[simp] theorem takeFault_sp (c : Fault) (s : State) : (takeFault c s).sp = s.sp := rfl
@[simp] theorem takeFault_DT (c : Fault) (s : State) : (takeFault c s).DT = s.DT := rfl
@[simp] theorem takeFault_ST (c : Fault) (s : State) : (takeFault c s).ST = s.ST := rfl
@[simp] theorem takeFault_fb (c : Fault) (s : State) : (takeFault c s).fb = s.fb := rfl
@[simp] theorem takeFault_opcode (c : Fault) (s : State) : (takeFault c s).opcode = s.opcode := rfl
@[simp] theorem takeFault_status (c : Fault) (s : State) : (takeFault c s).status = .faulted c := rfl
@[simp] theorem takeFault_key (c : Fault) (s : State) : (takeFault c s).key = s.key := rfl
@[simp] theorem takeFault_rnd (c : Fault) (s : State) : (takeFault c s).rnd = s.rnd := rfl
@[simp] theorem takeFault_pending (c : Fault) (s : State) : (takeFault c s).pending = s.pending := rfl
@[simp] theorem takeFault_cycles (c : Fault) (s : State) : (takeFault c s).cycles = s.cycles := rfl

/-! `setPc` -/

@[simp] theorem setPc_mem (s : State) (w : Word) : (s.setPc w).mem = s.mem := rfl
@[simp] theorem setPc_V (s : State) (w : Word) : (s.setPc w).V = s.V := rfl
@[simp] theorem setPc_I (s : State) (w : Word) : (s.setPc w).I = s.I := rfl
@[simp] theorem setPc_pc (s : State) (w : Word) : (s.setPc w).pc = w := rfl
@[simp] theorem setPc_stack (s : State) (w : Word) : (s.setPc w).stack = s.stack := rfl
@[simp] theorem setPc_sp (s : State) (w : Word) : (s.setPc w).sp = s.sp := rfl
@[simp] theorem setPc_DT (s : State) (w : Word) : (s.setPc w).DT = s.DT := rfl
@[simp] theorem setPc_ST (s : State) (w : Word) : (s.setPc w).ST = s.ST := rfl
@[simp] theorem setPc_fb (s : State) (w : Word) : (s.setPc w).fb = s.fb := rfl
@[simp] theorem setPc_opcode (s : State) (w : Word) : (s.setPc w).opcode = s.opcode := rfl
@[simp] theorem setPc_status (s : State) (w : Word) : (s.setPc w).status = s.status := rfl
@[simp] theorem setPc_key (s : State) (w : Word) : (s.setPc w).key = s.key := rfl
@[simp] theorem setPc_rnd (s : State) (w : Word) : (s.setPc w).rnd = s.rnd := rfl
@[simp] theorem setPc_pending (s : State) (w : Word) : (s.setPc w).pending = s.pending := rfl
@[simp] theorem setPc_cycles (s : State) (w : Word) : (s.setPc w).cycles = s.cycles := rfl

/-! `advance` -/

@[simp] theorem advance_mem (s : State) (w : Word) : (s.advance w).mem = s.mem := rfl
@[simp] theorem advance_V (s : State) (w : Word) : (s.advance w).V = s.V := rfl
@[simp] theorem advance_I (s : State) (w : Word) : (s.advance w).I = s.I := rfl
@[simp] theorem advance_pc (s : State) (w : Word) : (s.advance w).pc = s.pc + 2 := rfl
@[simp] theorem advance_stack (s : State) (w : Word) : (s.advance w).stack = s.stack := rfl
@[simp] theorem advance_sp (s : State) (w : Word) : (s.advance w).sp = s.sp := rfl
@[simp] theorem advance_DT (s : State) (w : Word) : (s.advance w).DT = s.DT := rfl
@[simp] theorem advance_ST (s : State) (w : Word) : (s.advance w).ST = s.ST := rfl
@[simp] theorem advance_fb (s : State) (w : Word) : (s.advance w).fb = s.fb := rfl
@[simp] theorem advance_opcode (s : State) (w : Word) : (s.advance w).opcode = w := rfl
@[simp] theorem advance_status (s : State) (w : Word) : (s.advance w).status = s.status := rfl
@[simp] theorem advance_key (s : State) (w : Word) : (s.advance w).key = s.key := rfl
@[simp] theorem advance_rnd (s : State) (w : Word) : (s.advance w).rnd = s.rnd := rfl
@[simp] theorem advance_pending (s : State) (w : Word) : (s.advance w).pending = s.pending := rfl
@[simp] theorem advance_cycles (s : State) (w : Word) : (s.advance w).cycles = s.cycles := rfl

/-! `tick` -/

@[simp] theorem tick_mem (s : State) : (s.tick).mem = s.mem := rfl
@[simp] theorem tick_V (s : State) : (s.tick).V = s.V := rfl
@[simp] theorem tick_I (s : State) : (s.tick).I = s.I := rfl
@[simp] theorem tick_pc (s : State) : (s.tick).pc = s.pc := rfl
@[simp] theorem tick_stack (s : State) : (s.tick).stack = s.stack := rfl
@[simp] theorem tick_sp (s : State) : (s.tick).sp = s.sp := rfl
@[simp] theorem tick_DT (s : State) : (s.tick).DT = countDown s.DT := rfl
@[simp] theorem tick_ST (s : State) : (s.tick).ST = countDown s.ST := rfl
@[simp] theorem tick_fb (s : State) : (s.tick).fb = s.fb := rfl
@[simp] theorem tick_opcode (s : State) : (s.tick).opcode = s.opcode := rfl
@[simp] theorem tick_status (s : State) : (s.tick).status = s.status := rfl
@[simp] theorem tick_key (s : State) : (s.tick).key = s.key := rfl
@[simp] theorem tick_rnd (s : State) : (s.tick).rnd = s.rnd := rfl
@[simp] theorem tick_pending (s : State) : (s.tick).pending = s.pending := rfl
@[simp] theorem tick_cycles (s : State) : (s.tick).cycles = s.cycles := rfl

/-! `setV` -/

@[simp] theorem setV_mem (s : State) (x : Reg) (v : Byte) : (s.setV x v).mem = s.mem := rfl
@[simp] theorem setV_V (s : State) (x : Reg) (v : Byte) : (s.setV x v).V = s.V.set x v := rfl
@[simp] theorem setV_I (s : State) (x : Reg) (v : Byte) : (s.setV x v).I = s.I := rfl
@[simp] theorem setV_pc (s : State) (x : Reg) (v : Byte) : (s.setV x v).pc = s.pc := rfl
@[simp] theorem setV_stack (s : State) (x : Reg) (v : Byte) : (s.setV x v).stack = s.stack := rfl
@[simp] theorem setV_sp (s : State) (x : Reg) (v : Byte) : (s.setV x v).sp = s.sp := rfl
@[simp] theorem setV_DT (s : State) (x : Reg) (v : Byte) : (s.setV x v).DT = s.DT := rfl
@[simp] theorem setV_ST (s : State) (x : Reg) (v : Byte) : (s.setV x v).ST = s.ST := rfl
@[simp] theorem setV_fb (s : State) (x : Reg) (v : Byte) : (s.setV x v).fb = s.fb := rfl
@[simp] theorem setV_opcode (s : State) (x : Reg) (v : Byte) : (s.setV x v).opcode = s.opcode := rfl
@[simp] theorem setV_status (s : State) (x : Reg) (v : Byte) : (s.setV x v).status = s.status := rfl
@[simp] theorem setV_key (s : State) (x : Reg) (v : Byte) : (s.setV x v).key = s.key := rfl
@[simp] theorem setV_rnd (s : State) (x : Reg) (v : Byte) : (s.setV x v).rnd = s.rnd := rfl
@[simp] theorem setV_pending (s : State) (x : Reg) (v : Byte) : (s.setV x v).pending = s.pending := rfl
@[simp] theorem setV_cycles (s : State) (x : Reg) (v : Byte) : (s.setV x v).cycles = s.cycles := rfl

/-! `setI` -/

@[simp] theorem setI_mem (s : State) (w : Word) : (s.setI w).mem = s.mem := rfl
@[simp] theorem setI_V (s : State) (w : Word) : (s.setI w).V = s.V := rfl
@[simp] theorem setI_I (s : State) (w : Word) : (s.setI w).I = w := rfl
@[simp] theorem setI_pc (s : State) (w : Word) : (s.setI w).pc = s.pc := rfl
@[simp] theorem setI_stack (s : State) (w : Word) : (s.setI w).stack = s.stack := rfl
@[simp] theorem setI_sp (s : State) (w : Word) : (s.setI w).sp = s.sp := rfl
@[simp] theorem setI_DT (s : State) (w : Word) : (s.setI w).DT = s.DT := rfl
@[simp] theorem setI_ST (s : State) (w : Word) : (s.setI w).ST = s.ST := rfl
@[simp] theorem setI_fb (s : State) (w : Word) : (s.setI w).fb = s.fb := rfl
@[simp] theorem setI_opcode (s : State) (w : Word) : (s.setI w).opcode = s.opcode := rfl
@[simp] theorem setI_status (s : State) (w : Word) : (s.setI w).status = s.status := rfl
@[simp] theorem setI_key (s : State) (w : Word) : (s.setI w).key = s.key := rfl
@[simp] theorem setI_rnd (s : State) (w : Word) : (s.setI w).rnd = s.rnd := rfl
@[simp] theorem setI_pending (s : State) (w : Word) : (s.setI w).pending = s.pending := rfl
@[simp] theorem setI_cycles (s : State) (w : Word) : (s.setI w).cycles = s.cycles := rfl

/-! `setDT` -/

@[simp] theorem setDT_mem (s : State) (v : Byte) : (s.setDT v).mem = s.mem := rfl
@[simp] theorem setDT_V (s : State) (v : Byte) : (s.setDT v).V = s.V := rfl
@[simp] theorem setDT_I (s : State) (v : Byte) : (s.setDT v).I = s.I := rfl
@[simp] theorem setDT_pc (s : State) (v : Byte) : (s.setDT v).pc = s.pc := rfl
@[simp] theorem setDT_stack (s : State) (v : Byte) : (s.setDT v).stack = s.stack := rfl
@[simp] theorem setDT_sp (s : State) (v : Byte) : (s.setDT v).sp = s.sp := rfl
@[simp] theorem setDT_DT (s : State) (v : Byte) : (s.setDT v).DT = v := rfl
@[simp] theorem setDT_ST (s : State) (v : Byte) : (s.setDT v).ST = s.ST := rfl
@[simp] theorem setDT_fb (s : State) (v : Byte) : (s.setDT v).fb = s.fb := rfl
@[simp] theorem setDT_opcode (s : State) (v : Byte) : (s.setDT v).opcode = s.opcode := rfl
@[simp] theorem setDT_status (s : State) (v : Byte) : (s.setDT v).status = s.status := rfl
@[simp] theorem setDT_key (s : State) (v : Byte) : (s.setDT v).key = s.key := rfl
@[simp] theorem setDT_rnd (s : State) (v : Byte) : (s.setDT v).rnd = s.rnd := rfl
@[simp] theorem setDT_pending (s : State) (v : Byte) : (s.setDT v).pending = s.pending := rfl
@[simp] theorem setDT_cycles (s : State) (v : Byte) : (s.setDT v).cycles = s.cycles := rfl

/-! `setST` -/

@[simp] theorem setST_mem (s : State) (v : Byte) : (s.setST v).mem = s.mem := rfl
@[simp] theorem setST_V (s : State) (v : Byte) : (s.setST v).V = s.V := rfl
@[simp] theorem setST_I (s : State) (v : Byte) : (s.setST v).I = s.I := rfl
@[simp] theorem setST_pc (s : State) (v : Byte) : (s.setST v).pc = s.pc := rfl
@[simp] theorem setST_stack (s : State) (v : Byte) : (s.setST v).stack = s.stack := rfl
@[simp] theorem setST_sp (s : State) (v : Byte) : (s.setST v).sp = s.sp := rfl
@[simp] theorem setST_DT (s : State) (v : Byte) : (s.setST v).DT = s.DT := rfl
@[simp] theorem setST_ST (s : State) (v : Byte) : (s.setST v).ST = v := rfl
@[simp] theorem setST_fb (s : State) (v : Byte) : (s.setST v).fb = s.fb := rfl
@[simp] theorem setST_opcode (s : State) (v : Byte) : (s.setST v).opcode = s.opcode := rfl
@[simp] theorem setST_status (s : State) (v : Byte) : (s.setST v).status = s.status := rfl
@[simp] theorem setST_key (s : State) (v : Byte) : (s.setST v).key = s.key := rfl
@[simp] theorem setST_rnd (s : State) (v : Byte) : (s.setST v).rnd = s.rnd := rfl
@[simp] theorem setST_pending (s : State) (v : Byte) : (s.setST v).pending = s.pending := rfl
@[simp] theorem setST_cycles (s : State) (v : Byte) : (s.setST v).cycles = s.cycles := rfl

/-! `flipPixel` -/

@[simp] theorem flipPixel_mem (s : State) (idx : Nat) (h : idx < 2048) : (s.flipPixel idx h).mem = s.mem := rfl
@[simp] theorem flipPixel_V (s : State) (idx : Nat) (h : idx < 2048) : (s.flipPixel idx h).V = s.V := rfl
@[simp] theorem flipPixel_I (s : State) (idx : Nat) (h : idx < 2048) : (s.flipPixel idx h).I = s.I := rfl
@[simp] theorem flipPixel_pc (s : State) (idx : Nat) (h : idx < 2048) : (s.flipPixel idx h).pc = s.pc := rfl
@[simp] theorem flipPixel_stack (s : State) (idx : Nat) (h : idx < 2048) : (s.flipPixel idx h).stack = s.stack := rfl
@[simp] theorem flipPixel_sp (s : State) (idx : Nat) (h : idx < 2048) : (s.flipPixel idx h).sp = s.sp := rfl
@[simp] theorem flipPixel_DT (s : State) (idx : Nat) (h : idx < 2048) : (s.flipPixel idx h).DT = s.DT := rfl
@[simp] theorem flipPixel_ST (s : State) (idx : Nat) (h : idx < 2048) : (s.flipPixel idx h).ST = s.ST := rfl
@[simp] theorem flipPixel_opcode (s : State) (idx : Nat) (h : idx < 2048) : (s.flipPixel idx h).opcode = s.opcode := rfl
@[simp] theorem flipPixel_status (s : State) (idx : Nat) (h : idx < 2048) : (s.flipPixel idx h).status = s.status := rfl
@[simp] theorem flipPixel_key (s : State) (idx : Nat) (h : idx < 2048) : (s.flipPixel idx h).key = s.key := rfl
@[simp] theorem flipPixel_rnd (s : State) (idx : Nat) (h : idx < 2048) : (s.flipPixel idx h).rnd = s.rnd := rfl
@[simp] theorem flipPixel_pending (s : State) (idx : Nat) (h : idx < 2048) : (s.flipPixel idx h).pending = s.pending := rfl
@[simp] theorem flipPixel_cycles (s : State) (idx : Nat) (h : idx < 2048) : (s.flipPixel idx h).cycles = s.cycles := rfl

/-! `clearPixels` -/

@[simp] theorem clearPixels_mem (s : State) : (s.clearPixels).mem = s.mem := rfl
@[simp] theorem clearPixels_V (s : State) : (s.clearPixels).V = s.V := rfl
@[simp] theorem clearPixels_I (s : State) : (s.clearPixels).I = s.I := rfl
@[simp] theorem clearPixels_pc (s : State) : (s.clearPixels).pc = s.pc := rfl
@[simp] theorem clearPixels_stack (s : State) : (s.clearPixels).stack = s.stack := rfl
@[simp] theorem clearPixels_sp (s : State) : (s.clearPixels).sp = s.sp := rfl
@[simp] theorem clearPixels_DT (s : State) : (s.clearPixels).DT = s.DT := rfl
@[simp] theorem clearPixels_ST (s : State) : (s.clearPixels).ST = s.ST := rfl
@[simp] theorem clearPixels_fb (s : State) : (s.clearPixels).fb = Vector.replicate 32 0 := rfl
@[simp] theorem clearPixels_opcode (s : State) : (s.clearPixels).opcode = s.opcode := rfl
@[simp] theorem clearPixels_status (s : State) : (s.clearPixels).status = s.status := rfl
@[simp] theorem clearPixels_key (s : State) : (s.clearPixels).key = s.key := rfl
@[simp] theorem clearPixels_rnd (s : State) : (s.clearPixels).rnd = s.rnd := rfl
@[simp] theorem clearPixels_pending (s : State) : (s.clearPixels).pending = s.pending := rfl
@[simp] theorem clearPixels_cycles (s : State) : (s.clearPixels).cycles = s.cycles := rfl

/-! `withInput` -/

@[simp] theorem withInput_mem (s : State) (i : CycleInput) : (s.withInput i).mem = s.mem := rfl
@[simp] theorem withInput_V (s : State) (i : CycleInput) : (s.withInput i).V = s.V := rfl
@[simp] theorem withInput_I (s : State) (i : CycleInput) : (s.withInput i).I = s.I := rfl
@[simp] theorem withInput_pc (s : State) (i : CycleInput) : (s.withInput i).pc = s.pc := rfl
@[simp] theorem withInput_stack (s : State) (i : CycleInput) : (s.withInput i).stack = s.stack := rfl
@[simp] theorem withInput_sp (s : State) (i : CycleInput) : (s.withInput i).sp = s.sp := rfl
@[simp] theorem withInput_DT (s : State) (i : CycleInput) : (s.withInput i).DT = s.DT := rfl
@[simp] theorem withInput_ST (s : State) (i : CycleInput) : (s.withInput i).ST = s.ST := rfl
@[simp] theorem withInput_fb (s : State) (i : CycleInput) : (s.withInput i).fb = s.fb := rfl
@[simp] theorem withInput_opcode (s : State) (i : CycleInput) : (s.withInput i).opcode = s.opcode := rfl
@[simp] theorem withInput_status (s : State) (i : CycleInput) : (s.withInput i).status = s.status := rfl
@[simp] theorem withInput_key (s : State) (i : CycleInput) : (s.withInput i).key = i.key := rfl
@[simp] theorem withInput_rnd (s : State) (i : CycleInput) : (s.withInput i).rnd = i.rnd := rfl
@[simp] theorem withInput_pending (s : State) (i : CycleInput) : (s.withInput i).pending = s.pending := rfl
@[simp] theorem withInput_cycles (s : State) (i : CycleInput) : (s.withInput i).cycles = s.cycles := rfl

/-! `withPending` -/

@[simp] theorem withPending_mem (s : State) (is : List CycleInput) : (s.withPending is).mem = s.mem := rfl
@[simp] theorem withPending_V (s : State) (is : List CycleInput) : (s.withPending is).V = s.V := rfl
@[simp] theorem withPending_I (s : State) (is : List CycleInput) : (s.withPending is).I = s.I := rfl
@[simp] theorem withPending_pc (s : State) (is : List CycleInput) : (s.withPending is).pc = s.pc := rfl
@[simp] theorem withPending_stack (s : State) (is : List CycleInput) : (s.withPending is).stack = s.stack := rfl
@[simp] theorem withPending_sp (s : State) (is : List CycleInput) : (s.withPending is).sp = s.sp := rfl
@[simp] theorem withPending_DT (s : State) (is : List CycleInput) : (s.withPending is).DT = s.DT := rfl
@[simp] theorem withPending_ST (s : State) (is : List CycleInput) : (s.withPending is).ST = s.ST := rfl
@[simp] theorem withPending_fb (s : State) (is : List CycleInput) : (s.withPending is).fb = s.fb := rfl
@[simp] theorem withPending_opcode (s : State) (is : List CycleInput) : (s.withPending is).opcode = s.opcode := rfl
@[simp] theorem withPending_status (s : State) (is : List CycleInput) : (s.withPending is).status = s.status := rfl
@[simp] theorem withPending_key (s : State) (is : List CycleInput) : (s.withPending is).key = s.key := rfl
@[simp] theorem withPending_rnd (s : State) (is : List CycleInput) : (s.withPending is).rnd = s.rnd := rfl
@[simp] theorem withPending_pending (s : State) (is : List CycleInput) : (s.withPending is).pending = is := rfl
@[simp] theorem withPending_cycles (s : State) (is : List CycleInput) : (s.withPending is).cycles = s.cycles := rfl

/-! `nextInput` reads `pending`, so its lemmas split on it. -/

@[simp] theorem nextInput_mem (s : State) : s.nextInput.mem = s.mem := by
  unfold State.nextInput; split <;> rfl
@[simp] theorem nextInput_V (s : State) : s.nextInput.V = s.V := by
  unfold State.nextInput; split <;> rfl
@[simp] theorem nextInput_I (s : State) : s.nextInput.I = s.I := by
  unfold State.nextInput; split <;> rfl
@[simp] theorem nextInput_pc (s : State) : s.nextInput.pc = s.pc := by
  unfold State.nextInput; split <;> rfl
@[simp] theorem nextInput_stack (s : State) : s.nextInput.stack = s.stack := by
  unfold State.nextInput; split <;> rfl
@[simp] theorem nextInput_sp (s : State) : s.nextInput.sp = s.sp := by
  unfold State.nextInput; split <;> rfl
@[simp] theorem nextInput_DT (s : State) : s.nextInput.DT = s.DT := by
  unfold State.nextInput; split <;> rfl
@[simp] theorem nextInput_ST (s : State) : s.nextInput.ST = s.ST := by
  unfold State.nextInput; split <;> rfl
@[simp] theorem nextInput_fb (s : State) : s.nextInput.fb = s.fb := by
  unfold State.nextInput; split <;> rfl
@[simp] theorem nextInput_opcode (s : State) : s.nextInput.opcode = s.opcode := by
  unfold State.nextInput; split <;> rfl
@[simp] theorem nextInput_status (s : State) : s.nextInput.status = s.status := by
  unfold State.nextInput; split <;> rfl
@[simp] theorem nextInput_cycles (s : State) : s.nextInput.cycles = s.cycles + 1 := by
  unfold State.nextInput; split <;> rfl

theorem nextInput_supplied (s : State) (i : CycleInput) (rest : List CycleInput) (h : s.pending = i :: rest) :
    s.nextInput.key = i.key ∧ s.nextInput.rnd = i.rnd ∧ s.nextInput.pending = rest := by
  simp [State.nextInput, h]

theorem nextInput_free (s : State) (h : s.pending = []) :
    s.nextInput.key = Config.freeKey s.cycles ∧ s.nextInput.rnd = Config.freeRnd s.cycles ∧ s.nextInput.pending = [] := by
  simp [State.nextInput, h]

/-! Registers and pixels through their accessors. -/

theorem getV_setV (s : State) (x y : Reg) (v : Byte) : (s.setV x v).getV y = if x = y then v else s.getV y := by
  simp only [State.getV, State.setV, Fin.getElem_fin, Vector.getElem_set, Fin.ext_iff]

@[simp] theorem getV_setV_same (s : State) (x : Reg) (v : Byte) : (s.setV x v).getV x = v := by simp [getV_setV]

theorem getV_setV_other (s : State) (x y : Reg) (v : Byte) (h : x ≠ y) : (s.setV x v).getV y = s.getV y := by
  simp [getV_setV, h]

@[simp] theorem takeFault_getV (c : Fault) (s : State) (y : Reg) : (takeFault c s).getV y = s.getV y := rfl
@[simp] theorem setPc_getV (s : State) (w : Word) (y : Reg) : (s.setPc w).getV y = s.getV y := rfl
@[simp] theorem advance_getV (s : State) (w : Word) (y : Reg) : (s.advance w).getV y = s.getV y := rfl
@[simp] theorem tick_getV (s : State) (y : Reg) : (s.tick).getV y = s.getV y := rfl
@[simp] theorem setI_getV (s : State) (w : Word) (y : Reg) : (s.setI w).getV y = s.getV y := rfl
@[simp] theorem setDT_getV (s : State) (v : Byte) (y : Reg) : (s.setDT v).getV y = s.getV y := rfl
@[simp] theorem setST_getV (s : State) (v : Byte) (y : Reg) : (s.setST v).getV y = s.getV y := rfl
@[simp] theorem flipPixel_getV (s : State) (idx : Nat) (h : idx < 2048) (y : Reg) : (s.flipPixel idx h).getV y = s.getV y := rfl
@[simp] theorem clearPixels_getV (s : State) (y : Reg) : (s.clearPixels).getV y = s.getV y := rfl
@[simp] theorem withInput_getV (s : State) (i : CycleInput) (y : Reg) : (s.withInput i).getV y = s.getV y := rfl
@[simp] theorem withPending_getV (s : State) (is : List CycleInput) (y : Reg) : (s.withPending is).getV y = s.getV y := rfl
@[simp] theorem nextInput_getV (s : State) (y : Reg) : s.nextInput.getV y = s.getV y := by simp [State.getV]

@[simp] theorem takeFault_pixel (c : Fault) (s : State) (j : Nat) : (takeFault c s).pixel j = s.pixel j := rfl
@[simp] theorem setPc_pixel (s : State) (w : Word) (j : Nat) : (s.setPc w).pixel j = s.pixel j := rfl
@[simp] theorem advance_pixel (s : State) (w : Word) (j : Nat) : (s.advance w).pixel j = s.pixel j := rfl
@[simp] theorem tick_pixel (s : State) (j : Nat) : (s.tick).pixel j = s.pixel j := rfl
@[simp] theorem setV_pixel (s : State) (x : Reg) (v : Byte) (j : Nat) : (s.setV x v).pixel j = s.pixel j := rfl
@[simp] theorem setI_pixel (s : State) (w : Word) (j : Nat) : (s.setI w).pixel j = s.pixel j := rfl
@[simp] theorem setDT_pixel (s : State) (v : Byte) (j : Nat) : (s.setDT v).pixel j = s.pixel j := rfl
@[simp] theorem setST_pixel (s : State) (v : Byte) (j : Nat) : (s.setST v).pixel j = s.pixel j := rfl
@[simp] theorem withInput_pixel (s : State) (i : CycleInput) (j : Nat) : (s.withInput i).pixel j = s.pixel j := rfl
@[simp] theorem withPending_pixel (s : State) (is : List CycleInput) (j : Nat) : (s.withPending is).pixel j = s.pixel j := rfl
@[simp] theorem nextInput_pixel (s : State) (j : Nat) : s.nextInput.pixel j = s.pixel j := by simp [State.pixel]

theorem pixel_flipPixel (s : State) (idx : Nat) (h : idx < 2048) (i : Nat) :
    (s.flipPixel idx h).pixel i = if i = idx then !s.pixel idx else s.pixel i := by
  unfold State.pixel State.flipPixel
  by_cases hi : i < 2048
  · simp only [hi, h, dif_pos, Vector.getElem_set]
    by_cases hrow : idx / 64 = i / 64
    · have hm : i % 64 < 64 := Nat.mod_lt _ (by decide)
      simp only [hrow, if_true, BitVec.getLsbD_xor, BitVec.getLsbD_twoPow]
      by_cases he : i = idx
      · subst he; simp [hm]
      · have : ¬ idx % 64 = i % 64 := by omega
        simp [he, this]
    · have : i ≠ idx := by rintro rfl; exact hrow rfl
      simp [hrow, this]
  · have : i ≠ idx := by omega
    simp [hi, this]

@[simp] theorem pixel_clearPixels (s : State) (i : Nat) : s.clearPixels.pixel i = false := by
  simp [State.pixel, State.clearPixels]

end Sys2Proof.Machine
end

