-- ==== Sys2Proof/Laws/Ops.lean ====
section
/-! SUPPORT. One lemma for each shared operation: everything it can answer. Callers cite it and do not unfold it. -/

namespace Sys2Proof.Machine

/-! ## Handlers that may fault -/

@[simp] theorem settle_ok (s t : State) : settle s (.ok t) = .next t := rfl

@[simp] theorem settle_error (s : State) (c : Fault) : settle s (.error c) = .next (takeFault c s) := rfl

/-- A handler that may fault always answers a next state: its result, or the fault taken. -/
theorem settle_cases (s t : State) (r : Except Fault State) (h : settle s r = .next t) :
    r = .ok t ∨ ∃ c, r = .error c ∧ t = takeFault c s := by
  cases r with
  | ok u => left; injection h with h; rw [h]
  | error c => right; injection h with h; exact ⟨c, rfl, h.symm⟩

theorem settle_next (s : State) (r : Except Fault State) : ∃ t, settle s r = .next t := by
  cases r <;> exact ⟨_, rfl⟩

/-! ## The call stack -/

theorem pushPc_free (s : State) (h : s.sp.val < 16) :
    pushPc s = .ok { s with stack := s.stack.set s.sp.val s.pc h, sp := ⟨s.sp.val + 1, by omega⟩ } := by simp [pushPc, h]

theorem pushPc_full (s : State) (h : s.sp.val = 16) : pushPc s = .error .stackOverflow := by simp [pushPc, h]

theorem popPc_some (s : State) (h : s.sp.val ≠ 0) :
    popPc s = .ok { s with sp := ⟨s.sp.val - 1, by omega⟩, pc := s.stack[s.sp.val - 1]'(by omega) } := by
  unfold popPc; rw [dif_neg h]

theorem popPc_empty (s : State) (h : s.sp.val = 0) : popPc s = .error .stackUnderflow := by
  unfold popPc; rw [dif_pos h]

/-! ## The program counter -/

@[simp] theorem skipIf_true (s : State) : skipIf true s = s.setPc (s.pc + 2) := rfl

@[simp] theorem skipIf_false (s : State) : skipIf false s = s := rfl

/-! ## The register block and the keypad -/

theorem mem_regsUpTo (x k : Reg) : k ∈ regsUpTo x ↔ k ≤ x := by
  revert x k; decide

theorem length_regsUpTo (x : Reg) : (regsUpTo x).length = x.val + 1 := by revert x; decide

theorem getElem_regsUpTo (x : Reg) (j : Nat) (h : j < x.val + 1) :
    (regsUpTo x)[j]'(by rw [length_regsUpTo]; exact h) = ⟨j, by omega⟩ := by
  simp [regsUpTo]

theorem selectedKey_in (s : State) (x : Reg) (h : (s.getV x).toNat ≤ 15) :
    selectedKey s x = .ok (s.keyDown (s.getV x).toNat) := by simp [selectedKey, h]

theorem selectedKey_out (s : State) (x : Reg) (h : 15 < (s.getV x).toNat) :
    selectedKey s x = .error (.keyIndex (s.getV x)) := by simp [selectedKey, Nat.not_le.mpr h]

/-- `lowestKey` is the least pressed key. -/
theorem lowestKey_some (s : State) (k : Fin 16) (hk : s.keyDown k.val = true)
    (hl : ∀ j : Fin 16, j < k → s.keyDown j.val = false) : lowestKey s = some k := by
  unfold lowestKey
  rw [List.find?_eq_some_iff_getElem]
  refine ⟨hk, k.val, by simp, by simp, fun j hj => ?_⟩
  have h16 : j < 16 := by omega
  simpa using hl ⟨j, h16⟩ (by simpa [Fin.lt_def] using hj)

theorem lowestKey_none (s : State) (h : s.key = 0) : lowestKey s = none := by
  simp [lowestKey, State.keyDown, h]

/-- The answer of `lowestKey` is a pressed key. -/
theorem lowestKey_down (s : State) (k : Fin 16) (h : lowestKey s = some k) : s.keyDown k.val = true :=
  by simpa using List.find?_some h

/-! ## The register block: what loading it does -/

theorem loadRegs_in (base : Nat) : ∀ (rs : List Reg) (s : State), (∀ r ∈ rs, base + r.val ≤ 0xFFF) → rs.Nodup →
    ∃ V, loadRegs s base rs = .ok { s with V := V } ∧
      ∀ k : Reg, V[k] = if k ∈ rs then s.mem.read (base + k.val) else s.V[k] := by
  intro rs
  induction rs with
  | nil => intro s _ _; exact ⟨s.V, rfl, fun k => by simp⟩
  | cons r rs ih =>
    intro s h hd
    rw [List.nodup_cons] at hd
    have hr : base + r.val ≤ 0xFFF := h r (by simp)
    obtain ⟨V, hV, hk⟩ := ih (s.setV r (s.mem.read (base + r.val))) (fun q hq => h q (by simp [hq])) hd.2
    refine ⟨V, ?_, fun k => ?_⟩
    · simp only [loadRegs, readByte_in _ _ hr]; exact hV
    · rw [hk k]
      by_cases hkr : k = r
      · subst hkr; simp [hd.1]
      · have : r.val ≠ k.val := fun he => hkr (Fin.ext he.symm)
        simp [hkr, this]

/-- The first register of the list whose byte is out of range decides the fault. -/
theorem loadRegs_out (base : Nat) : ∀ (pre : List Reg) (r : Reg) (post : List Reg) (s : State),
    (∀ q ∈ pre, base + q.val ≤ 0xFFF) → 0xFFF < base + r.val →
    loadRegs s base (pre ++ r :: post) = .error (.memAddress (base + r.val)) := by
  intro pre
  induction pre with
  | nil => intro r post s _ hr; simp [loadRegs, readByte_out _ _ hr]
  | cons q pre ih =>
    intro r post s h hr
    have hq : base + q.val ≤ 0xFFF := h q (by simp)
    simp only [List.cons_append, loadRegs, readByte_in _ _ hq]
    exact ih r post _ (fun p hp => h p (by simp [hp])) hr

/-! ## The cycle -/

theorem fetch_in (s : State) (h : s.pc.toNat ≤ 0xFFE) :
    fetch s = .ok (s.mem.read s.pc.toNat ++ s.mem.read (s.pc.toNat + 1)) := by simp [fetch, Nat.not_lt.mpr h]

theorem fetch_out (s : State) (h : 0xFFE < s.pc.toNat) : fetch s = .error (.fetchAddress s.pc) := by simp [fetch, h]

theorem countDown_toNat (t : Byte) : (countDown t).toNat = t.toNat - 1 := by
  unfold countDown
  split
  · next h => simp [h]
  · next h =>
    have h0 : t.toNat ≠ 0 := fun he => h (by simpa using BitVec.eq_of_toNat_eq he)
    have := t.isLt
    rw [BitVec.toNat_sub]; simp; omega

theorem endCycle_running (s u : State) (h : u.status = .running) : endCycle s u = u.tick.nextInput := by simp [endCycle, h]

theorem endCycle_faulted (s u : State) (c : Fault) (h : u.status = .faulted c) : endCycle s u = takeFault c s := by
  simp [endCycle, h]

theorem step_faulted (s : State) (c : Fault) (h : s.status = .faulted c) : step s = .next s := by simp [step, h]

theorem step_fetch_out (s : State) (hs : s.status = .running) (h : 0xFFE < s.pc.toNat) :
    step s = .next (takeFault (.fetchAddress s.pc) s) := by simp [step, hs, fetch_out s h]

theorem step_fetch_in (s : State) (hs : s.status = .running) (h : s.pc.toNat ≤ 0xFFE) :
    step s = finishCycle s (exec (decodeWord (s.mem.read s.pc.toNat ++ s.mem.read (s.pc.toNat + 1)))
      (s.advance (s.mem.read s.pc.toNat ++ s.mem.read (s.pc.toNat + 1)))) := by simp [step, hs, fetch_in s h]

/-- Everything a step that answers a next state can have done. -/
theorem step_cases (s t : State) (h : step s = .next t) :
    (∃ c, s.status = .faulted c ∧ t = s) ∨
    (s.status = .running ∧ 0xFFE < s.pc.toNat ∧ t = takeFault (.fetchAddress s.pc) s) ∨
    (s.status = .running ∧ s.pc.toNat ≤ 0xFFE ∧ ∃ u,
      exec (decodeWord (s.mem.read s.pc.toNat ++ s.mem.read (s.pc.toNat + 1)))
        (s.advance (s.mem.read s.pc.toNat ++ s.mem.read (s.pc.toNat + 1))) = .next u ∧
      ((u.status = .running ∧ t = u.tick.nextInput) ∨ ∃ c, u.status = .faulted c ∧ t = takeFault c s)) := by
  cases hs : s.status with
  | faulted c =>
    rw [step_faulted s c hs] at h; injection h with h
    exact .inl ⟨c, rfl, h.symm⟩
  | running =>
    by_cases hp : s.pc.toNat ≤ 0xFFE
    · rw [step_fetch_in s hs hp] at h
      refine .inr (.inr ⟨rfl, hp, ?_⟩)
      cases he : exec (decodeWord (s.mem.read s.pc.toNat ++ s.mem.read (s.pc.toNat + 1)))
          (s.advance (s.mem.read s.pc.toNat ++ s.mem.read (s.pc.toNat + 1))) with
      | next u =>
        rw [he] at h
        simp only [finishCycle, Host.Outcome.next.injEq] at h
        refine ⟨u, rfl, ?_⟩
        cases hu : u.status with
        | running => exact .inl ⟨rfl, by rw [← h, endCycle_running s u hu]⟩
        | faulted c => exact .inr ⟨c, rfl, by rw [← h, endCycle_faulted s u c hu]⟩
      | fault f => rw [he] at h; simp [finishCycle] at h
      | refused r => rw [he] at h; simp [finishCycle] at h
    · have hp : 0xFFE < s.pc.toNat := by omega
      rw [step_fetch_out s hs hp] at h; injection h with h
      exact .inr (.inl ⟨rfl, hp, h.symm⟩)

end Sys2Proof.Machine
end

