-- ==== Sys2Proof/Laws/Handlers.lean ====
section
/-! SUPPORT. The handlers built on recursion (byte stores, register loads, sprites): which fields they can change, which
fault they can raise, and that they commute with an update of a field they do not reach. -/

namespace Sys2Proof.Machine

/-! ## Which fields a successful handler changes -/

theorem writeBytes_ok (vs : List Byte) : ∀ (s t : State) (a : Nat), writeBytes s a vs = .ok t → t = { s with mem := t.mem } := by
  induction vs with
  | nil => intro s t a h; injection h with h; rw [← h]
  | cons v vs ih =>
    intro s t a h
    simp only [writeBytes, writeByte] at h
    split at h
    · next u hu =>
      split at hu
      · injection hu with hu
        have := ih _ _ _ h
        rw [this, ← hu]
      · cases hu
    · cases h

theorem loadRegs_ok (rs : List Reg) : ∀ (s t : State) (base : Nat), loadRegs s base rs = .ok t → t = { s with V := t.V } := by
  induction rs with
  | nil => intro s t base h; injection h with h; rw [← h]
  | cons r rs ih =>
    intro s t base h
    simp only [loadRegs] at h
    split at h
    · next b hb => exact ih (s.setV r b) t base h
    · cases h

theorem drawPixel_ok (idx : Nat) (s t : State) (h : drawPixel idx s = .ok t) : t = { s with V := t.V, fb := t.fb } := by
  unfold drawPixel at h
  split at h
  · injection h with h
    rw [← h]; split <;> rfl
  · cases h

theorem drawCols_ok (x0 y0 row : Nat) (b : Byte) (cols : List Nat) : ∀ s t : State,
    drawCols x0 y0 row b cols s = .ok t → t = { s with V := t.V, fb := t.fb } := by
  induction cols with
  | nil => intro s t h; injection h with h; rw [← h]
  | cons col cols ih =>
    intro s t h
    simp only [drawCols] at h
    split at h
    · split at h
      · next u hu =>
        rw [ih _ _ h, drawPixel_ok _ _ _ hu]
      · cases h
    · exact ih _ _ h

theorem drawRows_ok (x0 y0 : Nat) (left : Nat) : ∀ (row : Nat) (s t : State),
    drawRows x0 y0 row left s = .ok t → t = { s with V := t.V, fb := t.fb } := by
  induction left with
  | zero => intro row s t h; injection h with h; rw [← h]
  | succ left ih =>
    intro row s t h
    simp only [drawRows] at h
    split at h
    · cases h
    · split at h
      · cases h
      · next u hu => rw [ih _ _ _ h, drawCols_ok _ _ _ _ _ _ _ hu]

/-! ## Which fault a handler raises -/

/-- A faulting store names the first address beyond memory, which is one of its own. -/
theorem writeBytes_error (vs : List Byte) (s : State) (a : Nat) (c : Fault) (h : writeBytes s a vs = .error c) :
    c = .memAddress (max a 0x1000) ∧ max a 0x1000 < a + vs.length := by
  by_cases hle : a + vs.length ≤ 0x1000
  · rw [writeBytes_in vs s a hle] at h; cases h
  · by_cases hv : vs = []
    · subst hv; cases h
    · rw [writeBytes_out vs s a (by omega) hv] at h
      injection h with h
      have := List.length_pos_iff.mpr hv
      exact ⟨h.symm, by omega⟩

/-- A faulting register load names the address of the first register of the list whose byte is beyond memory. -/
theorem loadRegs_error (rs : List Reg) : ∀ (s : State) (base : Nat) (c : Fault), loadRegs s base rs = .error c →
    ∃ pre r post, rs = pre ++ r :: post ∧ (∀ q ∈ pre, base + q.val ≤ 0xFFF) ∧ 0xFFF < base + r.val ∧
      c = .memAddress (base + r.val) := by
  induction rs with
  | nil => intro s base c h; cases h
  | cons r rs ih =>
    intro s base c h
    by_cases hr : base + r.val ≤ 0xFFF
    · simp only [loadRegs, readByte_in _ _ hr] at h
      obtain ⟨pre, q, post, h1, h2, h3, h4⟩ := ih _ _ _ h
      refine ⟨r :: pre, q, post, by rw [h1]; rfl, fun k hk => ?_, h3, h4⟩
      rcases List.mem_cons.mp hk with rfl | hk
      · exact hr
      · exact h2 k hk
    · simp only [loadRegs, readByte_out _ _ (Nat.lt_of_not_le hr)] at h
      injection h with h
      exact ⟨[], r, rs, rfl, by simp, by omega, h.symm⟩

/-- A faulting load of V0 to Vx names the first address beyond memory, which is one of its own. -/
theorem loadRegs_upTo_error (x : Reg) (s : State) (base : Nat) (c : Fault)
    (h : loadRegs s base (regsUpTo x) = .error c) :
    c = .memAddress (max base 0x1000) ∧ max base 0x1000 < base + (x.val + 1) := by
  obtain ⟨pre, r, post, hrs, hpre, hr, rfl⟩ := loadRegs_error _ s base c h
  have hlen := length_regsUpTo x
  have hk : pre.length < x.val + 1 := by
    rw [hrs] at hlen; simp only [List.length_append, List.length_cons] at hlen; omega
  have hval : r.val = pre.length := by
    have h1 : (regsUpTo x)[pre.length]? = some r := by rw [hrs]; simp
    rw [List.getElem?_eq_getElem (by omega), getElem_regsUpTo x _ hk] at h1
    exact (congrArg Fin.val (Option.some.inj h1)).symm
  have hfirst : base + r.val ≤ max base 0x1000 := by
    rcases Nat.eq_zero_or_pos r.val with h0 | h0
    · omega
    · have hq : pre.length - 1 < pre.length := by omega
      have hqv : (pre[pre.length - 1]'hq).val = pre.length - 1 := by
        have h1 : (regsUpTo x)[pre.length - 1]? = some pre[pre.length - 1] := by
          rw [hrs, List.getElem?_append_left hq, List.getElem?_eq_getElem hq]
        rw [List.getElem?_eq_getElem (by omega), getElem_regsUpTo x _ (by omega)] at h1
        exact (congrArg Fin.val (Option.some.inj h1)).symm
      have := hpre _ (List.getElem_mem hq)
      omega
  have : base + r.val = max base 0x1000 := by omega
  rw [this]
  exact ⟨rfl, by omega⟩

/-- A faulting sprite row names the cell, beyond the framebuffer, of one of its set bits. -/
theorem drawCols_error (x0 y0 row : Nat) (b : Byte) (cols : List Nat) : ∀ (s : State) (c : Fault),
    drawCols x0 y0 row b cols s = .error c →
    ∃ col ∈ cols, spriteBit b col = true ∧ c = .framebufferIndex (pixelIndex x0 y0 row col) ∧
      2047 < pixelIndex x0 y0 row col := by
  induction cols with
  | nil => intro s c h; cases h
  | cons col cols ih =>
    intro s c h
    simp only [drawCols] at h
    split at h
    · next hb =>
      split at h
      · obtain ⟨k, hk, h1⟩ := ih _ _ h
        exact ⟨k, List.mem_cons_of_mem _ hk, h1⟩
      · next e he =>
        injection h with h
        unfold drawPixel at he
        split at he
        · cases he
        · injection he with he
          exact ⟨col, by simp, hb, by rw [← h, ← he], by omega⟩
    · obtain ⟨k, hk, h1⟩ := ih _ _ h
      exact ⟨k, List.mem_cons_of_mem _ hk, h1⟩

/-- A faulting sprite names the address of the first row beyond memory or the cell, beyond the framebuffer, of one of its
set bits. -/
theorem drawRows_error (x0 y0 : Nat) (left : Nat) : ∀ (row : Nat) (s : State) (c : Fault),
    drawRows x0 y0 row left s = .error c →
    (∃ r, row ≤ r ∧ r < row + left ∧ (∀ q, row ≤ q → q < r → s.I.toNat + q ≤ 0xFFF) ∧ 0xFFF < s.I.toNat + r ∧
      c = .memAddress (s.I.toNat + r)) ∨
    ∃ r col, row ≤ r ∧ r < row + left ∧ col < 8 ∧ spriteBit (s.mem.read (s.I.toNat + r)) col = true ∧
      c = .framebufferIndex (pixelIndex x0 y0 r col) ∧ 2047 < pixelIndex x0 y0 r col := by
  induction left with
  | zero => intro row s c h; cases h
  | succ left ih =>
    intro row s c h
    by_cases hrow : s.I.toNat + row ≤ 0xFFF
    · simp only [drawRows, readByte_in _ _ hrow] at h
      split at h
      · next e he =>
        injection h with h
        obtain ⟨col, hcol, h1, h2, h3⟩ := drawCols_error _ _ _ _ _ _ _ he
        exact .inr ⟨row, col, le_refl _, by omega, List.mem_range.mp hcol, h1, by rw [← h, h2], h3⟩
      · next u hu =>
        have hs := drawCols_ok _ _ _ _ _ _ _ hu
        have hI : u.I = s.I := by rw [hs]
        have hm : u.mem = s.mem := by rw [hs]
        rcases ih _ _ _ h with ⟨r, h1, h2, h3, h4, h5⟩ | ⟨r, col, h1, h2, h3, h4, h5, h6⟩
        · rw [hI] at h3 h4 h5
          refine .inl ⟨r, by omega, by omega, fun q hq hqr => ?_, h4, h5⟩
          rcases Nat.eq_or_lt_of_le hq with rfl | hlt
          · exact hrow
          · exact h3 q hlt hqr
        · rw [hI, hm] at h4
          exact .inr ⟨r, col, by omega, by omega, h3, h4, h5, h6⟩
    · simp only [drawRows, readByte_out _ _ (Nat.lt_of_not_le hrow)] at h
      injection h with h
      exact .inl ⟨row, le_refl _, by omega, fun q h1 h2 => by omega, by omega, h.symm⟩

/-! ## Commuting with an update of a field that is not reached

`F` is such an update: it commutes with the writes the handler makes and does not touch what it reads. -/

theorem readByte_comm (F : State → State) (hr : ∀ s, (F s).mem = s.mem) (s : State) (a : Nat) :
    readByte (F s) a = readByte s a := by simp [readByte, hr]

theorem writeBytes_comm (F : State → State) (hr : ∀ s, (F s).mem = s.mem)
    (hw : ∀ s m, F { s with mem := m } = { F s with mem := m }) (vs : List Byte) : ∀ (s : State) (a : Nat),
    writeBytes (F s) a vs = (writeBytes s a vs).map F := by
  induction vs with
  | nil => intro s a; rfl
  | cons v vs ih =>
    intro s a
    by_cases ha : a ≤ 0xFFF
    · simp only [writeBytes, writeByte, ha, if_true, hr, ← hw, ih]
    · simp only [writeBytes, writeByte, ha, if_false]; rfl

theorem loadRegs_comm (F : State → State) (hr : ∀ s, (F s).mem = s.mem)
    (hw : ∀ s x v, F (s.setV x v) = (F s).setV x v) (rs : List Reg) : ∀ (s : State) (base : Nat),
    loadRegs (F s) base rs = (loadRegs s base rs).map F := by
  induction rs with
  | nil => intro s base; rfl
  | cons r rs ih =>
    intro s base
    simp only [loadRegs, readByte_comm F hr]
    cases readByte s (base + r.val) with
    | ok b => simp only [← hw, ih]
    | error c => rfl

theorem drawCols_comm (F : State → State) (hp : ∀ s i, (F s).pixel i = s.pixel i)
    (hw : ∀ s x v, F (s.setV x v) = (F s).setV x v) (hf : ∀ s i h, F (s.flipPixel i h) = (F s).flipPixel i h)
    (x0 y0 row : Nat) (b : Byte) (cols : List Nat) : ∀ s : State,
    drawCols x0 y0 row b cols (F s) = (drawCols x0 y0 row b cols s).map F := by
  induction cols with
  | nil => intro s; rfl
  | cons col cols ih =>
    intro s
    by_cases hb : spriteBit b col
    · by_cases hi : pixelIndex x0 y0 row col < 2048
      · simp only [drawCols, hb, if_true, drawPixel, hi, dif_pos, hp]
        split
        · rw [← hw, ← hf, ih]
        · rw [← hf, ih]
      · simp only [drawCols, hb, if_true, drawPixel, hi, dif_neg, not_false_eq_true]; rfl
    · simp only [drawCols, hb, ih]; rfl

theorem drawRows_comm (F : State → State) (hr : ∀ s, (F s).mem = s.mem) (hI : ∀ s, (F s).I = s.I)
    (hp : ∀ s i, (F s).pixel i = s.pixel i) (hw : ∀ s x v, F (s.setV x v) = (F s).setV x v)
    (hf : ∀ s i h, F (s.flipPixel i h) = (F s).flipPixel i h) (x0 y0 : Nat) (left : Nat) : ∀ (row : Nat) (s : State),
    drawRows x0 y0 row left (F s) = (drawRows x0 y0 row left s).map F := by
  induction left with
  | zero => intro row s; rfl
  | succ left ih =>
    intro row s
    simp only [drawRows, readByte_comm F hr, hI]
    cases readByte s (s.I.toNat + row) with
    | error c => rfl
    | ok b =>
      simp only [drawCols_comm F hp hw hf]
      cases drawCols x0 y0 row b (List.range 8) s with
      | error c => rfl
      | ok t => exact ih _ t

end Sys2Proof.Machine
end

