-- ==== Sys2Proof/Laws/Display.lean ====
section
/-! SUPPORT. Drawing a sprite as drawing a list of cells: what it does when every cell exists, and where it faults
(`spec/44_display.md` R171). -/

namespace Sys2Proof.Machine

/-- Draw the cells of a list, one after the other. -/
def drawAll : List Nat → State → Except Fault State
  | [], s => .ok s
  | i :: is, s =>
    match drawPixel i s with
    | .ok t => drawAll is t
    | .error c => .error c

theorem drawAll_append (is js : List Nat) : ∀ s, drawAll (is ++ js) s =
    match drawAll is s with
    | .ok t => drawAll js t
    | .error c => .error c := by
  induction is with
  | nil => intro s; rfl
  | cons i is ih =>
    intro s
    simp only [List.cons_append, drawAll]
    cases drawPixel i s with
    | ok t => exact ih t
    | error c => rfl

theorem drawAll_ok (is : List Nat) : ∀ s t : State, drawAll is s = .ok t → t = { s with V := t.V, fb := t.fb } := by
  induction is with
  | nil => intro s t h; injection h with h; rw [← h]
  | cons i is ih =>
    intro s t h
    simp only [drawAll] at h
    split at h
    · next u hu => rw [ih _ _ h, drawPixel_ok _ _ _ hu]
    · cases h

/-- Every cell of the list exists and stands in it once: those cells flip, and VF becomes 1 if one of them was lit. -/
theorem drawAll_in (is : List Nat) : ∀ s : State, is.Nodup → (∀ i ∈ is, i < 2048) → ∃ t, drawAll is s = .ok t ∧
    (∀ i, t.pixel i = if i ∈ is then !s.pixel i else s.pixel i) ∧
    (∀ r, r ≠ VF → t.getV r = s.getV r) ∧
    ((∃ i ∈ is, s.pixel i = true) → t.getV VF = 1) ∧
    ((∀ i ∈ is, s.pixel i = false) → t.getV VF = s.getV VF) := by
  induction is with
  | nil => intro s _ _; exact ⟨s, rfl, by simp, by simp, by simp, by simp⟩
  | cons i is ih =>
    intro s hd hin
    rw [List.nodup_cons] at hd
    have hi : i < 2048 := hin i (by simp)
    obtain ⟨t, ht, hp, hr, h1, h0⟩ :=
      ih ((if s.pixel i then s.setV VF 1 else s).flipPixel i hi) hd.2 (fun j hj => hin j (by simp [hj]))
    have hpix : ∀ j, ((if s.pixel i then s.setV VF 1 else s).flipPixel i hi).pixel j =
        if j = i then !s.pixel i else s.pixel j := by
      intro j; rw [pixel_flipPixel]; split <;> split <;> simp
    refine ⟨t, by simp only [drawAll, drawPixel, hi, dif_pos]; exact ht, fun j => ?_, fun r hrv => ?_, fun h => ?_, fun h => ?_⟩
    · rw [hp j, hpix j]
      by_cases hj : j = i
      · subst hj; simp [hd.1]
      · simp [hj]
    · rw [hr r hrv]
      split
      · exact getV_setV_other s VF r 1 (Ne.symm hrv)
      · rfl
    · by_cases hl : ∃ j ∈ is, s.pixel j = true
      · obtain ⟨j, hj, hjl⟩ := hl
        refine h1 ⟨j, hj, ?_⟩
        have : j ≠ i := fun e => hd.1 (e ▸ hj)
        rw [hpix j, if_neg this, hjl]
      · have hil : s.pixel i = true := by
          obtain ⟨j, hj, hjl⟩ := h
          rcases List.mem_cons.mp hj with rfl | hj
          · exact hjl
          · exact absurd ⟨j, hj, hjl⟩ hl
        rw [h0]
        · simp [hil]
        · intro j hj
          have : j ≠ i := fun e => hd.1 (e ▸ hj)
          rw [hpix j, if_neg this]
          by_contra hc
          exact hl ⟨j, hj, by simpa using hc⟩
    · rw [h0]
      · simp [h i (by simp)]
      · intro j hj
        have : j ≠ i := fun e => hd.1 (e ▸ hj)
        rw [hpix j, if_neg this]
        exact h j (by simp [hj])

/-- The first cell of the list that does not exist is the fault. -/
theorem drawAll_out (pre : List Nat) (i : Nat) (post : List Nat) : ∀ s : State, (∀ j ∈ pre, j < 2048) → 2048 ≤ i →
    drawAll (pre ++ i :: post) s = .error (.framebufferIndex i) := by
  induction pre with
  | nil => intro s _ hi; simp [drawAll, drawPixel, Nat.not_lt.mpr hi]
  | cons j pre ih =>
    intro s h hi
    have hj : j < 2048 := h j (by simp)
    simp only [List.cons_append, drawAll, drawPixel, hj, dif_pos]
    exact ih _ (fun k hk => h k (by simp [hk])) hi

/-- The cells that the columns `cols` of one sprite row land on. -/
def rowTargets (x0 y0 row : Nat) (b : Byte) (cols : List Nat) : List Nat :=
  (cols.filter (spriteBit b)).map (pixelIndex x0 y0 row)

theorem drawCols_eq (x0 y0 row : Nat) (b : Byte) (cols : List Nat) : ∀ s,
    drawCols x0 y0 row b cols s = drawAll (rowTargets x0 y0 row b cols) s := by
  induction cols with
  | nil => intro s; rfl
  | cons col cols ih =>
    intro s
    by_cases hb : spriteBit b col
    · simp only [drawCols, rowTargets, hb, if_true, List.filter_cons, List.map_cons, drawAll]
      cases drawPixel (pixelIndex x0 y0 row col) s with
      | ok t => exact ih t
      | error c => rfl
    · simp only [drawCols, rowTargets, hb, List.filter_cons]
      exact ih s

/-- The cells that sprite rows `row` to `row + left - 1` land on. -/
def spriteTargets (s : State) (x0 y0 row left : Nat) : List Nat :=
  (List.range' row left).flatMap (fun r => rowTargets x0 y0 r (s.mem.read (s.I.toNat + r)) (List.range 8))

/-- With every row in memory, drawing the rows is drawing their cells. -/
theorem drawRows_eq (x0 y0 left : Nat) : ∀ (row : Nat) (s : State),
    (∀ r, row ≤ r → r < row + left → s.I.toNat + r ≤ 0xFFF) →
    drawRows x0 y0 row left s = drawAll (spriteTargets s x0 y0 row left) s := by
  induction left with
  | zero => intro row s _; rfl
  | succ left ih =>
    intro row s h
    have h0 : s.I.toNat + row ≤ 0xFFF := h row (le_refl _) (by omega)
    simp only [drawRows, readByte_in _ _ h0, drawCols_eq, spriteTargets, List.range'_succ, List.flatMap_cons,
      drawAll_append]
    cases ht : drawAll (rowTargets x0 y0 row (s.mem.read (s.I.toNat + row)) (List.range 8)) s with
    | error c => rfl
    | ok t =>
      have hs := drawAll_ok _ _ _ ht
      have hI : t.I = s.I := by rw [hs]
      have hm : t.mem = s.mem := by rw [hs]
      simp only
      rw [ih (row + 1) t (fun r h1 h2 => by rw [hI]; exact h r (by omega) (by omega))]
      simp only [spriteTargets, hI, hm]

/-- Rows drawn in two goes. -/
theorem drawRows_add (x0 y0 a b : Nat) : ∀ (row : Nat) (s : State), drawRows x0 y0 row (a + b) s =
    match drawRows x0 y0 row a s with
    | .ok t => drawRows x0 y0 (row + a) b t
    | .error c => .error c := by
  induction a with
  | zero => intro row s; simp [drawRows]
  | succ a ih =>
    intro row s
    rw [show a + 1 + b = (a + b) + 1 by omega]
    simp only [drawRows]
    cases readByte s (s.I.toNat + row) with
    | error c => rfl
    | ok v =>
      simp only
      cases drawCols x0 y0 row v (List.range 8) s with
      | error c => rfl
      | ok t =>
        simp only [ih]
        rw [show row + 1 + a = row + (a + 1) by omega]

theorem mem_spriteTargets (s : State) (x0 y0 row left i : Nat) : i ∈ spriteTargets s x0 y0 row left ↔
    ∃ r col, row ≤ r ∧ r < row + left ∧ col < 8 ∧ spriteBit (s.mem.read (s.I.toNat + r)) col = true ∧
      i = pixelIndex x0 y0 r col := by
  simp only [spriteTargets, rowTargets, List.mem_flatMap, List.mem_map, List.mem_filter, List.mem_range, List.mem_range'_1]
  constructor
  · rintro ⟨r, ⟨h1, h2⟩, col, ⟨h3, h4⟩, rfl⟩; exact ⟨r, col, h1, h2, h3, h4, rfl⟩
  · rintro ⟨r, col, h1, h2, h3, h4, rfl⟩; exact ⟨r, ⟨h1, h2⟩, col, ⟨h3, h4⟩, rfl⟩

/-- No two bits of a sprite land on the same cell. -/
theorem nodup_spriteTargets (s : State) (x0 y0 left : Nat) : ∀ row, (spriteTargets s x0 y0 row left).Nodup := by
  induction left with
  | zero => intro row; exact List.nodup_nil
  | succ left ih =>
    intro row
    have hrow : (rowTargets x0 y0 row (s.mem.read (s.I.toNat + row)) (List.range 8)).Nodup :=
      ((List.nodup_range).filter _).map (fun a b h => by unfold pixelIndex at h; omega)
    have := ih (row + 1)
    unfold spriteTargets at this ⊢
    rw [List.range'_succ, List.flatMap_cons, List.nodup_append]
    refine ⟨hrow, this, fun a ha b hb hab => ?_⟩
    subst hab
    obtain ⟨r, col, h1, _, h3, _, h5⟩ := (mem_spriteTargets s x0 y0 (row + 1) left a).mp hb
    simp only [rowTargets, List.mem_map, List.mem_filter, List.mem_range] at ha
    obtain ⟨c, ⟨hc, _⟩, rfl⟩ := ha
    unfold pixelIndex at h5
    omega

end Sys2Proof.Machine
end

