-- ==== Sys2Proof/Laws/Encoding.lean ====
section
/-! SUPPORT. The fields of the words the encoder builds, and bytes to words and back (`spec/30_encoding.md` R70 to R72). -/

namespace Sys2Proof

/-- The bytes of a word make the word again. -/
@[simp] theorem wordOfBytes_bytesOfWord (w : Word) : wordOfBytes (w.extractLsb' 8 8) (w.extractLsb' 0 8) = w := by
  unfold wordOfBytes
  apply BitVec.eq_of_getLsbD_eq
  intro i hi
  simp only [BitVec.getLsbD_append, BitVec.getLsbD_extractLsb']
  split
  · simp; omega
  · have h1 : i - 8 < 8 := by omega
    have h2 : 8 + (i - 8) = i := by omega
    simp [h1, h2]

theorem decode_bytesOfWord (w : Word) (rest : List Byte) : decode (bytesOfWord w ++ rest) = .ok (decodeWord w, rest) := by
  simp [decode, bytesOfWord]

/-! ## Format `NNN` -/

@[simp] theorem opField_wordNNN (op : Nibble) (nnn : Addr) : opField (wordNNN op nnn) = op := by
  apply BitVec.eq_of_getLsbD_eq; intro i hi
  simp only [opField, wordNNN, BitVec.getLsbD_extractLsb', BitVec.getLsbD_append]; simp [hi]

@[simp] theorem nnnField_wordNNN (op : Nibble) (nnn : Addr) : nnnField (wordNNN op nnn) = nnn := by
  apply BitVec.eq_of_getLsbD_eq; intro i hi
  simp only [nnnField, wordNNN, BitVec.getLsbD_extractLsb', BitVec.getLsbD_append]; simp [hi]

/-! ## Format `XKK` -/

@[simp] theorem opField_wordXKK (op : Nibble) (x : Reg) (kk : Byte) : opField (wordXKK op x kk) = op := by
  apply BitVec.eq_of_getLsbD_eq; intro i hi
  simp only [opField, wordXKK, BitVec.getLsbD_extractLsb', BitVec.getLsbD_append]
  have h1 : ¬ 12 + i < 8 := by omega
  have h2 : ¬ 12 + i - 8 < 4 := by omega
  have h3 : 12 + i - 8 - 4 = i := by omega
  simp [h1, h2, h3, hi]

@[simp] theorem xField_wordXKK (op : Nibble) (x : Reg) (kk : Byte) : xField (wordXKK op x kk) = x := by
  have h : (wordXKK op x kk).extractLsb' 8 4 = regBits x := by
    apply BitVec.eq_of_getLsbD_eq; intro i hi
    simp only [wordXKK, BitVec.getLsbD_extractLsb', BitVec.getLsbD_append]
    have h2 : 8 + i - 8 < 4 := by omega
    simp [hi]
  simp only [xField, h]; rfl

@[simp] theorem kkField_wordXKK (op : Nibble) (x : Reg) (kk : Byte) : kkField (wordXKK op x kk) = kk := by
  apply BitVec.eq_of_getLsbD_eq; intro i hi
  simp only [kkField, wordXKK, BitVec.getLsbD_extractLsb', BitVec.getLsbD_append]; simp [hi]

/-- The low nibble of an `XKK` word is the low nibble of `kk`. -/
theorem nField_wordXKK (op : Nibble) (x : Reg) (kk : Byte) : nField (wordXKK op x kk) = kk.extractLsb' 0 4 := by
  apply BitVec.eq_of_getLsbD_eq; intro i hi
  simp only [nField, wordXKK, BitVec.getLsbD_extractLsb', BitVec.getLsbD_append]
  have h : 0 + i < 8 := by omega
  simp [hi]; omega

/-! ## Formats `XY`, `XYN`, `F8` -/

@[simp] theorem opField_wordXYN (op : Nibble) (x y : Reg) (n : Nibble) : opField (wordXYN op x y n) = op := by
  apply BitVec.eq_of_getLsbD_eq; intro i hi
  simp only [opField, wordXYN, BitVec.getLsbD_extractLsb', BitVec.getLsbD_append]
  have h1 : ¬ 12 + i < 4 := by omega
  have h2 : ¬ 12 + i - 4 < 4 := by omega
  have h3 : ¬ 12 + i - 4 - 4 < 4 := by omega
  have h4 : 12 + i - 4 - 4 - 4 = i := by omega
  simp [h1, h2, h3, h4, hi]

@[simp] theorem xField_wordXYN (op : Nibble) (x y : Reg) (n : Nibble) : xField (wordXYN op x y n) = x := by
  have h : (wordXYN op x y n).extractLsb' 8 4 = regBits x := by
    apply BitVec.eq_of_getLsbD_eq; intro i hi
    simp only [wordXYN, BitVec.getLsbD_extractLsb', BitVec.getLsbD_append]
    have h1 : ¬ 8 + i < 4 := by omega
    have h2 : ¬ 8 + i - 4 < 4 := by omega
    have h3 : 8 + i - 4 - 4 = i := by omega
    simp [h1, h2, h3, hi]
  simp only [xField, h]; rfl

@[simp] theorem yField_wordXYN (op : Nibble) (x y : Reg) (n : Nibble) : yField (wordXYN op x y n) = y := by
  have h : (wordXYN op x y n).extractLsb' 4 4 = regBits y := by
    apply BitVec.eq_of_getLsbD_eq; intro i hi
    simp only [wordXYN, BitVec.getLsbD_extractLsb', BitVec.getLsbD_append]
    have h1 : ¬ 4 + i < 4 := by omega
    have h2 : 4 + i - 4 = i := by omega
    simp [h1, h2, hi]
  simp only [yField, h]; rfl

@[simp] theorem nField_wordXYN (op : Nibble) (x y : Reg) (n : Nibble) : nField (wordXYN op x y n) = n := by
  apply BitVec.eq_of_getLsbD_eq; intro i hi
  simp only [nField, wordXYN, BitVec.getLsbD_extractLsb', BitVec.getLsbD_append]; simp [hi]

end Sys2Proof
end

