-- ==== Sys2Proof/Laws/Frames.lean ====
section
/-! SUPPORT. The frame of each named update, and that frames compose. -/

namespace Sys2Proof.Machine

variable {W : Part → Prop} {s t u : State}

theorem UnchangedBut.refl (W : Part → Prop) (s : State) : UnchangedBut W s s := by
  constructor <;> intros <;> simp

theorem UnchangedBut.trans (h : UnchangedBut W s t) (k : UnchangedBut W t u) : UnchangedBut W s u where
  reg x hx := (k.reg x hx).trans (h.reg x hx)
  index hx := (k.index hx).trans (h.index hx)
  pc hx := (k.pc hx).trans (h.pc hx)
  slot j hx := (k.slot j hx).trans (h.slot j hx)
  sp hx := (k.sp hx).trans (h.sp hx)
  delay hx := (k.delay hx).trans (h.delay hx)
  sound hx := (k.sound hx).trans (h.sound hx)
  cell i hi hx := (k.cell i hi hx).trans (h.cell i hi hx)
  byte a hx := (k.byte a hx).trans (h.byte a hx)
  opcode hx := (k.opcode hx).trans (h.opcode hx)
  status hx := (k.status hx).trans (h.status hx)
  input hx := by
    obtain ⟨a, b, c, d⟩ := h.input hx
    obtain ⟨a', b', c', d'⟩ := k.input hx
    exact ⟨a'.trans a, b'.trans b, c'.trans c, d'.trans d⟩

theorem unchanged_setV (s : State) (x : Reg) (v : Byte) (h : W (.reg x)) : UnchangedBut W s (s.setV x v) := by
  constructor <;> intros <;> first | rfl | exact ⟨rfl, rfl, rfl, rfl⟩ | skip
  next y hy => exact getV_setV_other s x y v (fun e => hy (e ▸ h))

theorem unchanged_setI (s : State) (w : Word) (h : W .index) : UnchangedBut W s (s.setI w) := by
  constructor <;> intros <;> simp_all

theorem unchanged_setPc (s : State) (w : Word) (h : W .pc) : UnchangedBut W s (s.setPc w) := by
  constructor <;> intros <;> simp_all

theorem unchanged_skipIf (c : Bool) (s : State) (h : W .pc) : UnchangedBut W s (skipIf c s) := by
  cases c
  · exact .refl W s
  · exact unchanged_setPc s _ h

theorem unchanged_setDT (s : State) (v : Byte) (h : W .delay) : UnchangedBut W s (s.setDT v) := by
  constructor <;> intros <;> simp_all

theorem unchanged_setST (s : State) (v : Byte) (h : W .sound) : UnchangedBut W s (s.setST v) := by
  constructor <;> intros <;> simp_all

theorem unchanged_clearPixels (s : State) (h : ∀ i, W (.cell i)) : UnchangedBut W s s.clearPixels := by
  constructor <;> intros <;> simp_all

theorem unchanged_flipPixel (s : State) (i : Nat) (hi : i < 2048) (h : W (.cell i)) :
    UnchangedBut W s (s.flipPixel i hi) := by
  constructor <;> intros <;> first | rfl | exact ⟨rfl, rfl, rfl, rfl⟩ | skip
  next j hj hw =>
    rw [pixel_flipPixel]
    split
    · next e => exact absurd (e ▸ h) hw
    · rfl

theorem unchanged_advance (s : State) (w : Word) (hp : W .pc) (ho : W .opcode) : UnchangedBut W s (s.advance w) := by
  constructor <;> intros <;> simp_all

theorem unchanged_tick (s : State) (hd : W .delay) (hs : W .sound) : UnchangedBut W s s.tick := by
  constructor <;> intros <;> simp_all

theorem unchanged_nextInput (s : State) (h : W .input) : UnchangedBut W s s.nextInput := by
  constructor <;> intros <;> simp_all

/-- Writing some bytes changes those bytes and nothing else. -/
theorem unchanged_writeList (s : State) (a : Nat) (vs : List Byte) (h : ∀ j, j < vs.length → W (.byte (a + j))) :
    UnchangedBut W s { s with mem := s.mem.writeList a vs } := by
  constructor <;> intros <;> first | rfl | exact ⟨rfl, rfl, rfl, rfl⟩ | skip
  next b hb =>
    rw [read_writeList]
    split
    · next hab =>
      have : vs.length ≤ b - a := by
        by_contra hc
        exact hb (by simpa [Nat.add_sub_cancel' hab] using h (b - a) (by omega))
      rw [List.getElem?_eq_none this]; rfl
    · rfl

/-- A register block changed and nothing else. -/
theorem unchanged_regs (s : State) (V : Vector Byte 16) (h : ∀ k : Reg, ¬ W (.reg k) → V[k] = s.V[k]) :
    UnchangedBut W s { s with V := V } := by
  constructor <;> intros <;> first | rfl | exact ⟨rfl, rfl, rfl, rfl⟩ | skip
  next x hx => exact h x hx

end Sys2Proof.Machine
end

