-- ==== Sys2Proof/Laws/PerInstr.lean ====
section
/-! SUPPORT. Per instruction: a well-formed instruction's word lies in a row of the opcode table that bears the
instruction's mnemonic (`spec/30_encoding.md` R80, R81). -/

namespace Sys2Proof.Laws

/-- Row `r` bears the mnemonic `m` and covers the word `w`. -/
abbrev RowCovers (m : Mnemonic) (w : Word) (r : OpcodeRow) : Prop := r.name = m ∧ r.matches w = true

/-! ## Words under the table's masks -/

theorem wordNNN_and_F000 (op : Nibble) (nnn : Addr) : wordNNN op nnn &&& 0xF000 = op ++ 0#12 := by
  change (op ++ nnn) &&& (BitVec.allOnes 4 ++ 0#12) = _
  simp only [BitVec.and_append, BitVec.and_allOnes, BitVec.and_zero]

theorem wordXKK_and_F000 (op : Nibble) (x : Reg) (kk : Byte) : wordXKK op x kk &&& 0xF000 = op ++ 0#4 ++ 0#8 := by
  change (op ++ regBits x ++ kk) &&& (BitVec.allOnes 4 ++ 0#4 ++ 0#8) = _
  simp only [BitVec.and_append, BitVec.and_allOnes, BitVec.and_zero]

theorem wordXKK_and_F0FF (op : Nibble) (x : Reg) (kk : Byte) : wordXKK op x kk &&& 0xF0FF = op ++ 0#4 ++ kk := by
  change (op ++ regBits x ++ kk) &&& (BitVec.allOnes 4 ++ 0#4 ++ BitVec.allOnes 8) = _
  simp only [BitVec.and_append, BitVec.and_allOnes, BitVec.and_zero]

theorem wordXKK_and_F00F (op : Nibble) (x : Reg) (kk : Byte) :
    wordXKK op x kk &&& 0xF00F = op ++ 0#4 ++ (kk &&& 0x0F#8) := by
  change (op ++ regBits x ++ kk) &&& (BitVec.allOnes 4 ++ 0#4 ++ 0x0F#8) = _
  simp only [BitVec.and_append, BitVec.and_allOnes, BitVec.and_zero]

theorem wordXYN_and_F000 (op : Nibble) (x y : Reg) (n : Nibble) :
    wordXYN op x y n &&& 0xF000 = op ++ 0#4 ++ 0#4 ++ 0#4 := by
  change (op ++ regBits x ++ regBits y ++ n) &&& (BitVec.allOnes 4 ++ 0#4 ++ 0#4 ++ 0#4) = op ++ 0#4 ++ 0#4 ++ 0#4
  simp only [BitVec.and_append, BitVec.and_allOnes, BitVec.and_zero]

theorem wordXYN_and_F00F (op : Nibble) (x y : Reg) (n : Nibble) :
    wordXYN op x y n &&& 0xF00F = op ++ 0#4 ++ 0#4 ++ n := by
  change (op ++ regBits x ++ regBits y ++ n) &&& (BitVec.allOnes 4 ++ 0#4 ++ 0#4 ++ BitVec.allOnes 4) = op ++ 0#4 ++ 0#4 ++ n
  simp only [BitVec.and_append, BitVec.and_allOnes, BitVec.and_zero]

/-- A word as its top nibble, the nibble `x` and the low byte. -/
theorem word_eq_fields (w : Word) : w = opField w ++ w.extractLsb' 8 4 ++ kkField w := by
  apply BitVec.eq_of_getLsbD_eq; intro i hi
  simp only [opField, kkField, BitVec.getLsbD_append, BitVec.getLsbD_extractLsb']
  by_cases h1 : i < 8
  · simp [h1]
  · by_cases h2 : i - 8 < 4
    · have h : 8 + (i - 8) = i := by omega
      simp [h1, h2, h]
    · have h3 : i - 8 - 4 < 4 := by omega
      have h : 12 + (i - 8 - 4) = i := by omega
      simp [h1, h2, h3, h]

theorem and_F0FF (w : Word) : w &&& 0xF0FF = wordXKK (opField w) 0 (kkField w) := by
  conv_lhs => rw [word_eq_fields w]
  change (opField w ++ w.extractLsb' 8 4 ++ kkField w) &&& (BitVec.allOnes 4 ++ 0#4 ++ BitVec.allOnes 8) = opField w ++ 0#4 ++ kkField w
  simp only [BitVec.and_append, BitVec.and_allOnes, BitVec.and_zero]

/-! ## The rows of the no-op -/

/-- No row looks at the bits `x`. -/
theorem rows_ignore_x : ∀ r ∈ opcodeTable, 0xF0FF &&& r.mask = r.mask := by decide +kernel

theorem matches_and_F0FF (r : OpcodeRow) (hr : r ∈ opcodeTable) (w : Word) : r.matches (w &&& 0xF0FF) = r.matches w := by
  unfold OpcodeRow.matches
  rw [BitVec.and_assoc, rows_ignore_x r hr]

/-- Being unmapped does not depend on the bits `x`. -/
theorem unmappedWord_and_F0FF (w : Word) : unmappedWord (w &&& 0xF0FF) = unmappedWord w := by
  have h1 : opField (w &&& 0xF0FF) = opField w := by rw [and_F0FF, opField_wordXKK]
  have h3 : kkField (w &&& 0xF0FF) = kkField w := by rw [and_F0FF, kkField_wordXKK]
  have hn : ∀ v : Word, nField v = (kkField v).extractLsb' 0 4 := by
    intro v; unfold nField kkField
    apply BitVec.eq_of_getLsbD_eq; intro i hi
    simp [hi]
  unfold unmappedWord
  rw [hn, hn, h1, h3]

/-- The rows `NOP` of a family. -/
def nopRows (op : Nibble) : List OpcodeRow :=
  match op.toNat with
  | 0x0 => opcodeRowsNop0
  | 0x8 => opcodeRowsNop8
  | 0xE => opcodeRowsNopE
  | _ => opcodeRowsNopF

theorem mem_of_mem_nopRows (op : Nibble) (r : OpcodeRow) (h : r ∈ nopRows op) : r ∈ opcodeTable := by
  unfold opcodeTable
  unfold nopRows at h
  split at h <;> simp only [List.mem_append, h, true_or, or_true]

theorem nopRows_name : ∀ op : Nibble, ∀ r ∈ nopRows op, r.name = .NOP := by decide +kernel

/-- With `x = 0`, an unmapped word lies in a row `NOP` of its family. -/
theorem nopRow_of_unmapped : ∀ (op : Nibble) (kk : Byte),
    (!unmappedWord (wordXKK op 0 kk) || (nopRows op).any (fun r => r.matches (wordXKK op 0 kk))) = true := by
  decide +kernel

/-! ## The family -/

/-- The word of a well-formed instruction lies in a row of the table that bears its mnemonic. -/
def EncodesInItsRow.Statement (i : Instr) : Prop :=
  i.wf = true → ∃ r ∈ opcodeTable, RowCovers i.mnemonic (encode i) r

/-- A row given by its name, mask and key. -/
theorem row_of_and {m : Mnemonic} {w mask key : Word} (hr : ⟨m, mask, key⟩ ∈ opcodeTable) (h : w &&& mask = key) :
    ∃ r ∈ opcodeTable, RowCovers m w r := ⟨⟨m, mask, key⟩, hr, rfl, by simp [OpcodeRow.matches, h]⟩

theorem EncodesInItsRow.cls : EncodesInItsRow.Statement .cls :=
  fun _ => row_of_and (m := .CLS) (mask := 0xF00F) (key := 0x0000) (by decide) (by decide)

theorem EncodesInItsRow.ret : EncodesInItsRow.Statement .ret :=
  fun _ => row_of_and (m := .RET) (mask := 0xF00F) (key := 0x000E) (by decide) (by decide)

theorem EncodesInItsRow.jp (nnn : Addr) : EncodesInItsRow.Statement (.jp nnn) :=
  fun _ => row_of_and (m := .JP_addr) (mask := 0xF000) (key := 0x1000) (by decide) ((wordNNN_and_F000 ..).trans (by decide))

theorem EncodesInItsRow.call (nnn : Addr) : EncodesInItsRow.Statement (.call nnn) :=
  fun _ => row_of_and (m := .CALL_addr) (mask := 0xF000) (key := 0x2000) (by decide) ((wordNNN_and_F000 ..).trans (by decide))

theorem EncodesInItsRow.seByte (x : Reg) (kk : Byte) : EncodesInItsRow.Statement (.seByte x kk) :=
  fun _ => row_of_and (m := .SE_Vx__byte) (mask := 0xF000) (key := 0x3000) (by decide) ((wordXKK_and_F000 ..).trans (by decide))

theorem EncodesInItsRow.sneByte (x : Reg) (kk : Byte) : EncodesInItsRow.Statement (.sneByte x kk) :=
  fun _ => row_of_and (m := .SNE_Vx__byte) (mask := 0xF000) (key := 0x4000) (by decide) ((wordXKK_and_F000 ..).trans (by decide))

theorem EncodesInItsRow.seReg (x y : Reg) : EncodesInItsRow.Statement (.seReg x y) :=
  fun _ => row_of_and (m := .SE_Vx__Vy) (mask := 0xF000) (key := 0x5000) (by decide) ((wordXYN_and_F000 ..).trans (by decide))

theorem EncodesInItsRow.ldByte (x : Reg) (kk : Byte) : EncodesInItsRow.Statement (.ldByte x kk) :=
  fun _ => row_of_and (m := .LD_Vx__byte) (mask := 0xF000) (key := 0x6000) (by decide) ((wordXKK_and_F000 ..).trans (by decide))

theorem EncodesInItsRow.addByte (x : Reg) (kk : Byte) : EncodesInItsRow.Statement (.addByte x kk) :=
  fun _ => row_of_and (m := .ADD_Vx__byte) (mask := 0xF000) (key := 0x7000) (by decide) ((wordXKK_and_F000 ..).trans (by decide))

theorem EncodesInItsRow.ldReg (x y : Reg) : EncodesInItsRow.Statement (.ldReg x y) :=
  fun _ => row_of_and (m := .LD_Vx__Vy) (mask := 0xF00F) (key := 0x8000) (by decide) ((wordXYN_and_F00F ..).trans (by decide))

theorem EncodesInItsRow.orReg (x y : Reg) : EncodesInItsRow.Statement (.orReg x y) :=
  fun _ => row_of_and (m := .OR_Vx__Vy) (mask := 0xF00F) (key := 0x8001) (by decide) ((wordXYN_and_F00F ..).trans (by decide))

theorem EncodesInItsRow.andReg (x y : Reg) : EncodesInItsRow.Statement (.andReg x y) :=
  fun _ => row_of_and (m := .AND_Vx__Vy) (mask := 0xF00F) (key := 0x8002) (by decide) ((wordXYN_and_F00F ..).trans (by decide))

theorem EncodesInItsRow.xorReg (x y : Reg) : EncodesInItsRow.Statement (.xorReg x y) :=
  fun _ => row_of_and (m := .XOR_Vx__Vy) (mask := 0xF00F) (key := 0x8003) (by decide) ((wordXYN_and_F00F ..).trans (by decide))

theorem EncodesInItsRow.addReg (x y : Reg) : EncodesInItsRow.Statement (.addReg x y) :=
  fun _ => row_of_and (m := .ADD_Vx__Vy) (mask := 0xF00F) (key := 0x8004) (by decide) ((wordXYN_and_F00F ..).trans (by decide))

theorem EncodesInItsRow.subReg (x y : Reg) : EncodesInItsRow.Statement (.subReg x y) :=
  fun _ => row_of_and (m := .SUB_Vx__Vy) (mask := 0xF00F) (key := 0x8005) (by decide) ((wordXYN_and_F00F ..).trans (by decide))

theorem EncodesInItsRow.shr (x : Reg) : EncodesInItsRow.Statement (.shr x) :=
  fun _ => row_of_and (m := .SHR_Vx) (mask := 0xF00F) (key := 0x8006) (by decide) ((wordXYN_and_F00F ..).trans (by decide))

theorem EncodesInItsRow.subnReg (x y : Reg) : EncodesInItsRow.Statement (.subnReg x y) :=
  fun _ => row_of_and (m := .SUBN_Vx__Vy) (mask := 0xF00F) (key := 0x8007) (by decide) ((wordXYN_and_F00F ..).trans (by decide))

theorem EncodesInItsRow.shl (x : Reg) : EncodesInItsRow.Statement (.shl x) :=
  fun _ => row_of_and (m := .SHL_Vx) (mask := 0xF00F) (key := 0x800E) (by decide) ((wordXYN_and_F00F ..).trans (by decide))

theorem EncodesInItsRow.sneReg (x y : Reg) : EncodesInItsRow.Statement (.sneReg x y) :=
  fun _ => row_of_and (m := .SNE_Vx__Vy) (mask := 0xF000) (key := 0x9000) (by decide) ((wordXYN_and_F000 ..).trans (by decide))

theorem EncodesInItsRow.ldI (nnn : Addr) : EncodesInItsRow.Statement (.ldI nnn) :=
  fun _ => row_of_and (m := .LD_I__addr) (mask := 0xF000) (key := 0xA000) (by decide) ((wordNNN_and_F000 ..).trans (by decide))

theorem EncodesInItsRow.jpV0 (nnn : Addr) : EncodesInItsRow.Statement (.jpV0 nnn) :=
  fun _ => row_of_and (m := .JP_V0__addr) (mask := 0xF000) (key := 0xB000) (by decide) ((wordNNN_and_F000 ..).trans (by decide))

theorem EncodesInItsRow.rnd (x : Reg) (kk : Byte) : EncodesInItsRow.Statement (.rnd x kk) :=
  fun _ => row_of_and (m := .RND_Vx__byte) (mask := 0xF000) (key := 0xC000) (by decide) ((wordXKK_and_F000 ..).trans (by decide))

theorem EncodesInItsRow.drw (x y : Reg) (n : Nibble) : EncodesInItsRow.Statement (.drw x y n) :=
  fun _ => row_of_and (m := .DRW_Vx__Vy__n) (mask := 0xF000) (key := 0xD000) (by decide) ((wordXYN_and_F000 ..).trans (by decide))

theorem EncodesInItsRow.skp (x : Reg) : EncodesInItsRow.Statement (.skp x) :=
  fun _ => row_of_and (m := .SKP_Vx) (mask := 0xF00F) (key := 0xE00E) (by decide) ((wordXKK_and_F00F ..).trans (by decide))

theorem EncodesInItsRow.sknp (x : Reg) : EncodesInItsRow.Statement (.sknp x) :=
  fun _ => row_of_and (m := .SKNP_Vx) (mask := 0xF00F) (key := 0xE001) (by decide) ((wordXKK_and_F00F ..).trans (by decide))

theorem EncodesInItsRow.ldVxDT (x : Reg) : EncodesInItsRow.Statement (.ldVxDT x) :=
  fun _ => row_of_and (m := .LD_Vx__DT) (mask := 0xF0FF) (key := 0xF007) (by decide) ((wordXKK_and_F0FF ..).trans (by decide))

theorem EncodesInItsRow.ldVxK (x : Reg) : EncodesInItsRow.Statement (.ldVxK x) :=
  fun _ => row_of_and (m := .LD_Vx__K) (mask := 0xF0FF) (key := 0xF00A) (by decide) ((wordXKK_and_F0FF ..).trans (by decide))

theorem EncodesInItsRow.ldDTVx (x : Reg) : EncodesInItsRow.Statement (.ldDTVx x) :=
  fun _ => row_of_and (m := .LD_DT__Vx) (mask := 0xF0FF) (key := 0xF015) (by decide) ((wordXKK_and_F0FF ..).trans (by decide))

theorem EncodesInItsRow.ldSTVx (x : Reg) : EncodesInItsRow.Statement (.ldSTVx x) :=
  fun _ => row_of_and (m := .LD_ST__Vx) (mask := 0xF0FF) (key := 0xF018) (by decide) ((wordXKK_and_F0FF ..).trans (by decide))

theorem EncodesInItsRow.addI (x : Reg) : EncodesInItsRow.Statement (.addI x) :=
  fun _ => row_of_and (m := .ADD_I__Vx) (mask := 0xF0FF) (key := 0xF01E) (by decide) ((wordXKK_and_F0FF ..).trans (by decide))

theorem EncodesInItsRow.ldF (x : Reg) : EncodesInItsRow.Statement (.ldF x) :=
  fun _ => row_of_and (m := .LD_F__Vx) (mask := 0xF0FF) (key := 0xF029) (by decide) ((wordXKK_and_F0FF ..).trans (by decide))

theorem EncodesInItsRow.ldB (x : Reg) : EncodesInItsRow.Statement (.ldB x) :=
  fun _ => row_of_and (m := .LD_B__Vx) (mask := 0xF0FF) (key := 0xF033) (by decide) ((wordXKK_and_F0FF ..).trans (by decide))

theorem EncodesInItsRow.stRegs (x : Reg) : EncodesInItsRow.Statement (.stRegs x) :=
  fun _ => row_of_and (m := .LD__I___Vx) (mask := 0xF0FF) (key := 0xF055) (by decide) ((wordXKK_and_F0FF ..).trans (by decide))

theorem EncodesInItsRow.ldRegs (x : Reg) : EncodesInItsRow.Statement (.ldRegs x) :=
  fun _ => row_of_and (m := .LD_Vx___I) (mask := 0xF0FF) (key := 0xF065) (by decide) ((wordXKK_and_F0FF ..).trans (by decide))

theorem EncodesInItsRow.nop (w : Word) : EncodesInItsRow.Statement (.nop w) := by
  intro hw
  change unmappedWord w = true at hw
  rw [← unmappedWord_and_F0FF, and_F0FF] at hw
  have h := nopRow_of_unmapped (opField w) (kkField w)
  rw [hw, Bool.not_true, Bool.false_or, List.any_eq_true] at h
  obtain ⟨r, hr, h⟩ := h
  have hrt := mem_of_mem_nopRows _ r hr
  rw [← and_F0FF, matches_and_F0FF r hrt] at h
  exact ⟨r, hrt, nopRows_name _ r hr, h⟩

end Sys2Proof.Laws
end

