-- ==== Sys2Proof/Tests/Slice0.lean ====
section
/-! SUPPORT. Tests. Expected results are those of `spec/95_test_vectors.md` (its section is named at each group), which
derives them from the rules by hand. Words are written out from `spec/30_encoding.md` R74 to R78. At the end, a witness for
the hypotheses of every obligation that has any. -/

namespace Sys2Proof.Tests

open Sys2Proof Sys2Proof.Machine

/-! ## Helpers -/

/-- The reset state with an opcode at 0x200. -/
def at200 (w : Nat) : State := State.reset.withFetchWord 16 w

/-- A state with some registers set. -/
def withV (s : State) : List (Reg × Byte) → State
  | [] => s
  | (x, v) :: l => withV (s.setV x v) l

/-- A state with some bytes of memory set, from an address on. -/
def withMem (s : State) (a : Nat) (bs : List Byte) : State := { s with mem := s.mem.writeList a bs }

/-- A state with the framebuffer cell `i` toggled. -/
def withCell (s : State) (i : Nat) : State := if h : i < 2048 then s.flipPixel i h else s

/-- The state after one step. -/
def after (s : State) : State :=
  match step s with
  | .next t => t
  | _ => s

/-! ## Well-formedness: the one check refuses a mapped word as a no-op -/

theorem test_wf_refuses_mapped_nop : (Instr.nop 0x6005).wf = false := by decide

theorem test_wf_accepts_unmapped_nop : (Instr.nop 0x0ABC).wf = true := by decide

/-! ## Decoding: one written-out word for each constructor (2.1) -/

theorem test_decode_cls : decodeTableWord 16 0b0000_0000_1110_0000 = some .cls := by decide

theorem test_decode_ret : decodeTableWord 16 0b0000_0000_1110_1110 = some .ret := by decide

theorem test_decode_jp : decodeTableWord 16 0b0001_1010_1011_1100 = some (.jp 0xABC) := by decide

theorem test_decode_call : decodeTableWord 16 0b0010_1010_1011_1100 = some (.call 0xABC) := by decide

theorem test_decode_seByte : decodeTableWord 16 0b0011_1010_0100_0010 = some (.seByte 0xA 0x42) := by decide

theorem test_decode_sneByte : decodeTableWord 16 0b0100_1010_0100_0010 = some (.sneByte 0xA 0x42) := by decide

theorem test_decode_seReg : decodeTableWord 16 0b0101_0001_0010_0000 = some (.seReg 1 2) := by decide

theorem test_decode_ldByte : decodeTableWord 16 0b0110_1010_0100_0010 = some (.ldByte 0xA 0x42) := by decide

theorem test_decode_addByte : decodeTableWord 16 0b0111_1010_0100_0010 = some (.addByte 0xA 0x42) := by decide

theorem test_decode_ldReg : decodeTableWord 16 0b1000_0001_0010_0000 = some (.ldReg 1 2) := by decide

theorem test_decode_orReg : decodeTableWord 16 0b1000_0001_0010_0001 = some (.orReg 1 2) := by decide

theorem test_decode_andReg : decodeTableWord 16 0b1000_0001_0010_0010 = some (.andReg 1 2) := by decide

theorem test_decode_xorReg : decodeTableWord 16 0b1000_0001_0010_0011 = some (.xorReg 1 2) := by decide

theorem test_decode_addReg : decodeTableWord 16 0b1000_0001_0010_0100 = some (.addReg 1 2) := by decide

theorem test_decode_subReg : decodeTableWord 16 0b1000_0001_0010_0101 = some (.subReg 1 2) := by decide

theorem test_decode_shr : decodeTableWord 16 0b1000_0001_0010_0110 = some (.shr 1) := by decide

theorem test_decode_subnReg : decodeTableWord 16 0b1000_0001_0010_0111 = some (.subnReg 1 2) := by decide

theorem test_decode_shl : decodeTableWord 16 0b1000_0001_0010_1110 = some (.shl 1) := by decide

theorem test_decode_sneReg : decodeTableWord 16 0b1001_0001_0010_0000 = some (.sneReg 1 2) := by decide

theorem test_decode_ldI : decodeTableWord 16 0b1010_0001_0010_0011 = some (.ldI 0x123) := by decide

theorem test_decode_jpV0 : decodeTableWord 16 0b1011_0001_0010_0011 = some (.jpV0 0x123) := by decide

theorem test_decode_rnd : decodeTableWord 16 0b1100_0011_0000_1111 = some (.rnd 3 0x0F) := by decide

theorem test_decode_drw : decodeTableWord 16 0b1101_0001_0010_0101 = some (.drw 1 2 5) := by decide

theorem test_decode_skp : decodeTableWord 16 0b1110_0010_1001_1110 = some (.skp 2) := by decide

theorem test_decode_sknp : decodeTableWord 16 0b1110_0010_1010_0001 = some (.sknp 2) := by decide

theorem test_decode_ldVxDT : decodeTableWord 16 0b1111_0010_0000_0111 = some (.ldVxDT 2) := by decide

theorem test_decode_ldVxK : decodeTableWord 16 0b1111_0010_0000_1010 = some (.ldVxK 2) := by decide

theorem test_decode_ldDTVx : decodeTableWord 16 0b1111_0010_0001_0101 = some (.ldDTVx 2) := by decide

theorem test_decode_ldSTVx : decodeTableWord 16 0b1111_0010_0001_1000 = some (.ldSTVx 2) := by decide

theorem test_decode_addI : decodeTableWord 16 0b1111_0010_0001_1110 = some (.addI 2) := by decide

theorem test_decode_ldF : decodeTableWord 16 0b1111_0010_0010_1001 = some (.ldF 2) := by decide

theorem test_decode_ldB : decodeTableWord 16 0b1111_0010_0011_0011 = some (.ldB 2) := by decide

theorem test_decode_stRegs : decodeTableWord 16 0b1111_0010_0101_0101 = some (.stRegs 2) := by decide

theorem test_decode_ldRegs : decodeTableWord 16 0b1111_0010_0110_0101 = some (.ldRegs 2) := by decide

theorem test_decode_nop : decodeTableWord 16 0b1000_0001_0010_1000 = some (.nop 0x8128) := by decide

/-- One byte is no instruction (R70). -/
theorem test_decode_truncated : decode [0x60] = .error .truncated := by decide

/-- The first word is read high byte first and the rest is left (R56, R70). -/
theorem test_decode_bytes : decode [0x60, 0x05, 0x61] = .ok (.ldByte 0 5, [0x61]) := by decide

/-- The encoder writes the canonical words back (R81). -/
theorem test_encode_words : encode (.drw 1 2 5) = 0xD125 ∧ encode (.sknp 2) = 0xE2A1 ∧ encode (.ret) = 0x00EE := by decide

/-! ## Control flow (2.3) -/

theorem test_jp :
    let t := after (at200 0x1ABC)
    t.pc = 0xABC := by decide

theorem test_jp_odd_target :
    let t := after (at200 0x1FFF)
    t.pc = 0xFFF := by decide

theorem test_call :
    let t := after (at200 0x2300)
    t.stack[0] = 0x202 ∧ t.sp = 1 ∧ t.pc = 0x300 := by decide

theorem test_call_overflow :
    let t := after ({ at200 0x2200 with sp := 16 })
    t.status = .faulted .stackOverflow ∧ t.pc = 0x200 := by decide

theorem test_ret :
    let t := after ({ at200 0x00EE with sp := 1, stack := State.reset.stack.set 0 0x456 })
    t.pc = 0x456 ∧ t.sp = 0 ∧ t.stack[0] = 0x456 := by decide

theorem test_ret_underflow :
    let t := after ({ at200 0x00EE with DT := 9 })
    t.status = .faulted .stackUnderflow ∧ t.pc = 0x200 ∧ t.DT = 9 ∧ t.opcode = 0 := by decide

theorem test_se_byte_equal :
    let t := after (withV (at200 0x3A42) [(10, 0x42)])
    t.pc = 0x204 := by decide

theorem test_se_byte_differs :
    let t := after (withV (at200 0x3A42) [(10, 0x43)])
    t.pc = 0x202 := by decide

theorem test_sne_byte_equal :
    let t := after (withV (at200 0x4A42) [(10, 0x42)])
    t.pc = 0x202 := by decide

theorem test_sne_byte_differs :
    let t := after (withV (at200 0x4A42) [(10, 0x43)])
    t.pc = 0x204 := by decide

theorem test_se_reg_equal :
    let t := after (withV (at200 0x5120) [(1, 0x07), (2, 0x07)])
    t.pc = 0x204 := by decide

theorem test_se_reg_differs :
    let t := after (withV (at200 0x5120) [(1, 0x07), (2, 0x08)])
    t.pc = 0x202 := by decide

theorem test_sne_reg_equal :
    let t := after (withV (at200 0x9120) [(1, 0x07), (2, 0x07)])
    t.pc = 0x202 := by decide

theorem test_sne_reg_differs :
    let t := after (withV (at200 0x9120) [(1, 0x07), (2, 0x08)])
    t.pc = 0x204 := by decide

theorem test_jp_v0 :
    let t := after (withV (at200 0xB300) [(0, 0x04)])
    t.pc = 0x304 := by decide

theorem test_jp_v0_maximum :
    let t := after (withV (at200 0xBFFF) [(0, 0xFF)])
    t.pc = 0x10FE := by decide

/-! ## The cycle (2.2) -/

theorem test_nop_advances_and_ticks :
    let t := after ({ at200 0x0ABC with DT := 5, ST := 1 })
    t.pc = 0x202 ∧ t.DT = 4 ∧ t.ST = 0 ∧ t.opcode = 0x0ABC := by decide

theorem test_fetch_last_address :
    let t := after ({ withMem State.reset 0xFFE [0x60, 0x01] with pc := 0xFFE })
    t.getV 0 = 1 ∧ t.pc = 0x1000 := by decide

theorem test_fetch_fault :
    let t := after ({ State.reset with pc := 0xFFF })
    t.status = .faulted (.fetchAddress 0xFFF) ∧ t.pc = 0xFFF := by decide

/-! ## Arithmetic and logic (2.4) -/

theorem test_ld_byte :
    let t := after (at200 0x6FAB)
    t.getV 15 = 0xAB ∧ t.pc = 0x202 := by decide

theorem test_add_byte_wraps_no_flag :
    let t := after (withV (at200 0x7105) [(1, 0xFE), (15, 0x07)])
    t.getV 1 = 3 ∧ t.getV 15 = 7 := by decide

theorem test_ld_reg :
    let t := after (withV (at200 0x8120) [(1, 0x01), (2, 0x99)])
    t.getV 1 = 0x99 ∧ t.getV 2 = 0x99 := by decide

theorem test_or :
    let t := after (withV (at200 0x8121) [(1, 0x0C), (2, 0x03), (15, 0x07)])
    t.getV 1 = 0x0F ∧ t.getV 15 = 7 := by decide

theorem test_and :
    let t := after (withV (at200 0x8122) [(1, 0x0C), (2, 0x0A), (15, 0x07)])
    t.getV 1 = 8 ∧ t.getV 15 = 7 := by decide

theorem test_xor :
    let t := after (withV (at200 0x8123) [(1, 0x0C), (2, 0x0A), (15, 0x07)])
    t.getV 1 = 6 ∧ t.getV 15 = 7 := by decide

theorem test_add_carry :
    let t := after (withV (at200 0x8124) [(1, 0xF0), (2, 0x20)])
    t.getV 1 = 0x10 ∧ t.getV 15 = 1 := by decide

theorem test_add_vf_destination :
    let t := after (withV (at200 0x8F14) [(15, 0xF0), (1, 0x20)])
    t.getV 15 = 1 := by decide

theorem test_sub_borrow :
    let t := after (withV (at200 0x8125) [(1, 0x03), (2, 0x05)])
    t.getV 1 = 0xFE ∧ t.getV 15 = 0 := by decide

theorem test_sub_vf_source :
    let t := after (withV (at200 0x81F5) [(1, 0x05), (15, 0x03)])
    t.getV 1 = 4 ∧ t.getV 15 = 1 := by decide

theorem test_subn :
    let t := after (withV (at200 0x8127) [(1, 0x03), (2, 0x05)])
    t.getV 1 = 2 ∧ t.getV 15 = 1 := by decide

theorem test_subn_vf_destination :
    let t := after (withV (at200 0x8F17) [(15, 0x03), (1, 0x09)])
    t.getV 15 = 8 := by decide

theorem test_shr_ignores_y :
    let t := after (withV (at200 0x8126) [(1, 0x05), (2, 0xAA)])
    t.getV 1 = 2 ∧ t.getV 15 = 1 ∧ t.getV 2 = 0xAA := by decide

theorem test_shr_vf :
    let t := after (withV (at200 0x8F06) [(15, 0x07)])
    t.getV 15 = 0 := by decide

theorem test_shl_ignores_y :
    let t := after (withV (at200 0x812E) [(1, 0x81), (2, 0xAA)])
    t.getV 1 = 2 ∧ t.getV 15 = 1 ∧ t.getV 2 = 0xAA := by decide

theorem test_shl_vf :
    let t := after (withV (at200 0x8F0E) [(15, 0x81)])
    t.getV 15 = 2 := by decide

theorem test_rnd :
    let t := after ({ at200 0xC30F with rnd := 0xA7 })
    t.getV 3 = 7 := by decide

/-! ## Index register and memory (2.5) -/

theorem test_ld_i :
    let t := after (at200 0xAFFF)
    t.I = 0x0FFF := by decide

theorem test_add_i_no_flag :
    let t := after ({ withV (at200 0xF11E) [(1, 0xFF), (15, 0x07)] with I := 0x0FFF })
    t.I = 0x10FE ∧ t.getV 15 = 7 := by decide

theorem test_add_i_wraps :
    let t := after ({ withV (at200 0xF11E) [(1, 0x10)] with I := 0xFFF8 })
    t.I = 8 := by decide

theorem test_ld_f :
    let t := after (withV (at200 0xF029) [(0, 0xFF)])
    t.I = 0x054B := by decide

theorem test_ld_b :
    let t := after ({ withV (at200 0xF033) [(0, 0x9D)] with I := 0x300 })
    t.mem.read 0x300 = 1 ∧ t.mem.read 0x301 = 5 ∧ t.mem.read 0x302 = 7 ∧ t.I = 0x300 := by decide

theorem test_ld_b_beyond :
    let t := after ({ withV (at200 0xF033) [(0, 0x9D)] with I := 0xFFE })
    t.status = .faulted (.memAddress 0x1000) ∧ t.mem.read 0xFFE = 0 ∧ t.pc = 0x200 := by decide

theorem test_store_registers :
    let t := after ({ withV (withMem (at200 0xF255) 0x403 [0x99]) [(0, 0x11), (1, 0x22), (2, 0x33), (3, 0x44)] with I := 0x400 })
    t.mem.read 0x400 = 0x11 ∧ t.mem.read 0x402 = 0x33 ∧ t.mem.read 0x403 = 0x99 := by decide

theorem test_store_registers_beyond :
    let t := after ({ withV (at200 0xF155) [(0, 0x5A), (1, 0x5B)] with I := 0xFFF })
    t.status = .faulted (.memAddress 0x1000) ∧ t.mem.read 0xFFF = 0 := by decide

theorem test_load_registers :
    let t := after ({ withV (withMem (at200 0xF265) 0x400 [0xaa, 0xbb, 0xcc, 0xdd]) [(3, 0x44)] with I := 0x400 })
    t.getV 0 = 0xAA ∧ t.getV 2 = 0xCC ∧ t.getV 3 = 0x44 ∧ t.I = 0x400 := by decide

theorem test_load_registers_beyond :
    let t := after ({ withV (at200 0xF065) [(0, 0x09)] with I := 0x1000 })
    t.status = .faulted (.memAddress 0x1000) ∧ t.getV 0 = 9 := by decide

/-- 0xFF65 from the glyph table, with the default of `GLYPHS` as its hypothesis. -/
theorem test_load_registers_from_glyphs (h : GlyphsAreDefault) :
    let t := after { at200 0xFF65 with I := 0x050 }
    t.getV 0 = 0xF0 ∧ t.getV 6 = 0x60 ∧ t.getV 13 = 0x80 :=
  ⟨(Option.some.inj (h 0)).symm, (Option.some.inj (h 6)).symm, (Option.some.inj (h 13)).symm⟩

/-- The default table: 80 bytes, only the high nibble of each used (R52). -/
theorem test_default_glyphs : defaultGlyphs.length = 80 ∧ ∀ b ∈ defaultGlyphs, b &&& 0x0F = 0 := by decide

/-! ## Display (2.6) -/

theorem test_cls :
    let t := after (withCell (withCell (withV (at200 0x00E0) [(15, 0x09)]) 0) 2047)
    t.pixel 0 = false ∧ t.pixel 2047 = false ∧ t.getV 15 = 9 := by decide

theorem test_drw_run_on :
    let t := after ({ withV (withMem (at200 0xD011) 0x300 [0xf0]) [(0, 0x3E), (1, 0x01)] with I := 0x300 })
    [125, 126, 129, 130].map t.pixel = [false, true, true, false] ∧ t.getV 15 = 0 := by decide

theorem test_drw_collision :
    let t := after ({ withCell (withMem (at200 0xD011) 0x300 [0xc0]) 1 with I := 0x300 })
    t.pixel 0 = true ∧ t.pixel 1 = false ∧ t.getV 15 = 1 := by decide

/-! ## Keypad and timers (2.7) -/

theorem test_skp_pressed :
    let t := after ({ withV (at200 0xE29E) [(2, 0x0A)] with key := 0x0400 })
    t.pc = 0x204 := by decide

theorem test_skp_fault :
    let t := after (withV (at200 0xE29E) [(2, 0x10)])
    t.status = .faulted (.keyIndex 16) ∧ t.pc = 0x200 := by decide

theorem test_sknp_pressed :
    let t := after ({ withV (at200 0xE2A1) [(2, 0x0A)] with key := 0x0400 })
    t.pc = 0x202 := by decide

theorem test_sknp_not_pressed :
    let t := after (withV (at200 0xE2A1) [(2, 0x0A)])
    t.pc = 0x204 := by decide

theorem test_ld_vx_dt :
    let t := after ({ at200 0xF107 with DT := 2 })
    t.getV 1 = 2 ∧ t.DT = 1 := by decide

theorem test_ld_vx_k_waits :
    let t := after ({ at200 0xF00A with DT := 1 })
    t.pc = 0x200 ∧ t.getV 0 = 0 ∧ t.DT = 0 := by decide

theorem test_ld_vx_k_two_keys :
    let t := after ({ at200 0xF00A with key := 0x0088 })
    t.pc = 0x202 ∧ t.getV 0 = 3 := by decide

theorem test_ld_dt_vx :
    let t := after (withV (at200 0xF015) [(0, 0x03)])
    t.DT = 2 := by decide

theorem test_ld_st_vx :
    let t := after (withV (at200 0xF418) [(4, 0x10)])
    t.ST = 0x0F := by decide

/-! ## Witnesses: a state and operands that meet the hypotheses of each obligation, clause by clause -/

/-- The state at 0xFFE, the last fetchable address, with a word there. -/
def atTop (hi lo : Byte) : State := { withMem State.reset 0xFFE [hi, lo] with pc := 0xFFE }

theorem witness_StepKeepsTheInvariant : (at200 0x2300).Inv ∧ ∃ t, step (at200 0x2300) = .next t :=
  ⟨⟨by decide, by decide, by decide⟩, _, rfl⟩

theorem witness_DecodeOfEncodeIsTheInstruction : (Instr.drw 15 0 15).wf = true ∧ (Instr.nop 0xFFFF).wf = true := by decide

/-- One pair of words for the families 0x0, 0x8, 0xE, one for 0xF, one for the others. -/
theorem witness_SelectionReadsOnlyTheDispatchKeys :
    (opField 0x8124 = opField 0x8FE4 ∧ opField 0x8124 = 0x8 ∧ nField 0x8124 = nField 0x8FE4) ∧
    (opField 0xF055 = opField 0xFF55 ∧ opField 0xF055 = 0xF ∧ kkField 0xF055 = kkField 0xFF55) ∧
    (opField 0x9120 = opField 0x9FFF ∧ opField 0x9120 = 0x9) := by decide

theorem witness_StepRunsTheDecodedInstruction_completes :
    let s := { atTop 0xF0 0x15 with pending := [⟨0x8000, 0xFF⟩] }
    s.status = .running ∧ s.pc.toNat ≤ 0xFFE ∧
      decode [s.mem.read s.pc.toNat, s.mem.read (s.pc.toNat + 1)] = .ok (.ldDTVx 0, []) ∧
      ∃ u, exec (.ldDTVx 0) { s with pc := s.pc + 2, opcode := s.wordAtPc } = .next u ∧ u.status = .running ∧
        u.pending = [⟨0x8000, 0xFF⟩] := ⟨by decide, by decide, by decide, _, rfl, by decide, by decide⟩

theorem witness_StepRunsTheDecodedInstruction_faults :
    let s := at200 0x00EE
    s.status = .running ∧ s.pc.toNat ≤ 0xFFE ∧
      decode [s.mem.read s.pc.toNat, s.mem.read (s.pc.toNat + 1)] = .ok (.ret, []) ∧
      ∃ u, exec .ret { s with pc := s.pc + 2, opcode := s.wordAtPc } = .next u ∧
        u.status = .faulted .stackUnderflow := ⟨by decide, by decide, by decide, _, rfl, by decide⟩

theorem witness_FetchIsBigEndianAndFaultsBeyondMemory_fault :
    let s := { State.reset with pc := 0xFFF }
    s.status = .running ∧ 0xFFE < s.pc.toNat := by decide

theorem witness_FetchIsBigEndianAndFaultsBeyondMemory_completes :
    let s := atTop 0x60 0x01
    s.status = .running ∧ s.pc.toNat ≤ 0xFFE ∧ ∃ t, step s = .next t ∧ t.status = .running :=
  ⟨by decide, by decide, _, rfl, by decide⟩

theorem witness_FaultsArePreciseAndTerminal_precise :
    let s := at200 0x00EE
    s.status = .running ∧ ∃ t, step s = .next t ∧ t.status = .faulted .stackUnderflow := ⟨by decide, _, rfl, by decide⟩

theorem witness_FaultsArePreciseAndTerminal_terminal :
    (after (at200 0x00EE)).status = .faulted .stackUnderflow := by decide

/-- The hypotheses of FaultsComeOnlyFromTheListedCauses, for each of the six causes, and a memory fault of each of the four
instructions at the first value of `I` that gives one. -/
theorem witness_FaultsComeOnlyFromTheListedCauses :
    let causes : List (State × Fault) :=
      [({ State.reset with pc := 0xFFF }, .fetchAddress 0xFFF), ({ at200 0x2200 with sp := 16 }, .stackOverflow),
       (at200 0x00EE, .stackUnderflow), ({ at200 0xF033 with I := 0xFFE }, .memAddress 0x1000),
       ({ at200 0xFF55 with I := 0xFF1 }, .memAddress 0x1000), ({ at200 0xFF65 with I := 0xFF1 }, .memAddress 0x1000),
       ({ at200 0xD01F with I := 0xFF2 }, .memAddress 0x1000), ({ at200 0xF055 with I := 0xFFFF }, .memAddress 0xFFFF),
       ({ withV (withMem (at200 0xD011) 0x300 [0xFF]) [(0, 60), (1, 31)] with I := 0x300 }, .framebufferIndex 2048),
       (withV (at200 0xE29E) [(2, 16)], .keyIndex 16)]
    ∀ c ∈ causes, c.1.status = .running ∧ (after c.1).status = .faulted c.2 := by decide

theorem witness_BothTimersTickOncePerCompletedCycle :
    let s := { at200 0x0ABC with DT := 1, ST := 0 }
    s.status = .running ∧ ∃ t, step s = .next t ∧ t.status = .running := ⟨by decide, _, rfl, by decide⟩

/-- A self-jump with `DT = 5`, two cycles. -/
theorem witness_DelayTimerAfterManyCycles :
    let s := { at200 0x1200 with DT := 5 }
    (∃ t, Host.Core.run core 2 s = .next t ∧ t.status = .running) ∧
    ∀ k u x, k < 2 → Host.Core.run core k s = .next u → decodeWord u.wordAtPc ≠ .ldDTVx x := by
  refine ⟨⟨_, rfl, by decide⟩, fun k u x hk h => ?_⟩
  have h2 : k = 0 ∨ k = 1 := by omega
  rcases h2 with rfl | rfl <;> injection h with h <;> subst h <;> revert x <;> decide

theorem witness_ProgramCounterAfterACycle :
    let s := withV (atTop 0x30 0x00) [(0, 0)]
    s.status = .running ∧ ∃ t, step s = .next t ∧ t.status = .running ∧ t.pc = 0x1002 := ⟨by decide, _, rfl, by decide, by decide⟩

theorem witness_OnlyTheListedInstructionsReadTheInputs :
    (∃ t, exec (.drw 0 1 0) State.reset = .next t) ∧
    (Instr.drw 0 1 0).mnemonic ∉ [.SKP_Vx, .SKNP_Vx, .LD_Vx__K] ∧ (Instr.drw 0 1 0).mnemonic ≠ .RND_Vx__byte :=
  ⟨⟨_, rfl⟩, by decide, by decide⟩

theorem witness_DevicesAreReachedOnlyByTheirInstructions :
    (∃ t, exec (.stRegs 15) State.reset = .next t) ∧
    (Instr.stRegs 15).mnemonic ∉ [.CLS, .DRW_Vx__Vy__n] ∧ (Instr.stRegs 15).mnemonic ∉ [.SKP_Vx, .SKNP_Vx, .LD_Vx__K] ∧
    (Instr.stRegs 15).mnemonic ∉ [.LD_Vx__DT, .LD_DT__Vx] ∧ (Instr.stRegs 15).mnemonic ≠ .LD_ST__Vx :=
  ⟨⟨_, rfl⟩, by decide, by decide, by decide, by decide⟩

theorem witness_CallStackIsReachedOnlyByCallAndRet :
    (∃ t, exec (.jp 0) State.reset = .next t) ∧ (Instr.jp 0).mnemonic ∉ [.CALL_addr, .RET] ∧
    (∃ t, exec .ret { State.reset with sp := 16 } = .next t) ∧
    (∃ t, exec (.call 0) { State.reset with sp := 15 } = .next t) ∧ ∃ k : Fin 16, k.val ≠ 15 :=
  ⟨⟨_, rfl⟩, by decide, ⟨_, rfl⟩, ⟨_, rfl⟩, 0, by decide⟩

/-- One instruction that changes each part. -/
theorem witness_OnlyTheListedInstructionsWriteEachPart :
    (∃ t, exec (.ldB 0) (withV { State.reset with I := 0x300 } [(0, 100)]) = .next t ∧ t.mem ≠ []) ∧
    (∃ t, exec (.ldI 1) State.reset = .next t ∧ t.I ≠ State.reset.I) ∧
    (∃ t, exec (.jp 1) State.reset = .next t ∧ t.pc ≠ State.reset.pc) ∧
    (∃ t, exec .ret State.reset = .next t ∧ t.status ≠ State.reset.status) :=
  ⟨⟨_, rfl, by decide⟩, ⟨_, rfl, by decide⟩, ⟨_, rfl, by decide⟩, _, rfl, by decide⟩

theorem witness_FlagRegisterChangesOnlyWhereStated :
    let s := withV State.reset [(0, 0xFF), (1, 1)]
    (∃ t, exec (.addReg 0 1) s = .next t ∧ t.getV 15 ≠ s.getV 15) ∧
    ∃ t, exec (.ldByte 15 7) s = .next t ∧ t.getV 15 ≠ s.getV 15 := ⟨⟨_, rfl, by decide⟩, _, rfl, by decide⟩

/-- The words of the encoding clauses of LoadByteCompletes, AddRegistersCompletes and ClearScreenCompletes. -/
theorem witness_encodingClauses : (0x6FFF : Word) &&& 0xF000 = 0x6000 ∧ (0x8FF4 : Word) &&& 0xF00F = 0x8004 ∧
    (0x00E0 : Word) &&& 0xF00F = 0x0000 := by decide

/-- The operand cases of the flag writers: neither VF, one VF, both VF. -/
theorem witness_flagOperandClauses : (14 : Reg) ≠ 15 ∧ (0 : Reg) ≠ 15 ∧ (15 : Reg) = 15 := by decide

theorem witness_CallAndReturnComplete :
    ({ State.reset with sp := 15 } : State).sp.val < 16 ∧
    (∃ k : Fin 16, ({ State.reset with sp := 16 } : State).sp.val = k.val + 1) ∧
    ∃ k : Fin 16, ({ State.reset with sp := 1 } : State).sp.val = k.val + 1 := ⟨by decide, ⟨15, by decide⟩, 0, by decide⟩

theorem witness_CallStackFaults : ({ State.reset with sp := 16 } : State).sp.val = 16 ∧ State.reset.sp.val = 0 := by decide

theorem witness_ReturnRestoresTheCallersProgramCounter :
    let s := { State.reset with sp := 15 }
    s.sp.val < 16 ∧ ∃ t, exec (.call 0x300) s = .next t ∧ ∃ u : State, u.stack = t.stack ∧ u.sp = t.sp ∧ u.I ≠ t.I :=
  ⟨by decide, _, rfl, { after { at200 0x2300 with sp := 15, pc := 0x200 } with I := 9, stack := _, sp := _ }, rfl, rfl, by decide⟩

theorem witness_KeySkips : ((withV State.reset [(2, 15)]).getV 2).toNat ≤ 15 ∧
    15 < ((withV State.reset [(2, 16)]).getV 2).toNat := by decide

/-- Key 0 and key 15 as the least pressed key, and no key. -/
theorem witness_WaitForKeyCompletes :
    ((0xFFFF : Word).getLsbD 0 = true ∧ ∀ j, j < 0 → (0xFFFF : Word).getLsbD j = false) ∧
    ((0x8000 : Word).getLsbD 15 = true ∧ ∀ j, j < 15 → (0x8000 : Word).getLsbD j = false) ∧ State.reset.key = 0 := by decide

theorem witness_WaitingForAKeyStaysInPlaceAndTicks :
    (at200 0xFF0A).NextRuns (.ldVxK 15) ∧ (at200 0xFF0A).key = 0 := ⟨⟨by decide, by decide, by decide⟩, by decide⟩

/-- The memory clauses at both sides of the end of memory. -/
theorem witness_memoryClauses :
    let at_ (i : Word) : State := { State.reset with I := i }
    (at_ 0xFFD).I.toNat ≤ 0xFFD ∧ 0xFFF < (at_ 0xFFE).I.toNat + 2 ∧
    (at_ 0xFF0).I.toNat + (15 : Reg).val ≤ 0xFFF ∧ 0xFFF < (at_ 0xFF1).I.toNat + (15 : Reg).val ∧
    (at_ 0xFFF).I.toNat + (0 : Reg).val ≤ 0xFFF ∧ 0xFFF < (at_ 0x1000).I.toNat + (0 : Reg).val := by decide

theorem witness_LoadAfterStoreRestoresRegisters :
    let s := withV { State.reset with I := 0xFF0 } [(0, 1), (15, 2)]
    s.I.toNat + (15 : Reg).val ≤ 0xFFF ∧ ∃ t, exec (.stRegs 15) s = .next t := ⟨by decide, _, rfl⟩

/-- The store of `00 E0` at 0x200, where the next cycle fetches. -/
theorem witness_StoredBytesAreFetchedByTheNextCycle :
    let s := withV { State.reset with I := 0x200 } [(0, 0x00), (1, 0xE0)]
    s.status = .running ∧ 1 ≤ (1 : Reg).val ∧ s.I = s.pc ∧ s.I.toNat + (1 : Reg).val ≤ 0xFFF ∧
      ∃ t, exec (.stRegs 1) s = .next t ∧ ∃ u, step t = .next u ∧ u.status = .running :=
  ⟨by decide, by decide, by decide, by decide, _, rfl, _, rfl, by decide⟩

/-- A state about to draw `n` rows from `i` on, its bytes set, with V0 and V1 as the anchor. -/
def drawState (i : Word) (bs : List Byte) (vx vy : Byte) : State :=
  withV (withMem { State.reset with I := i } i.toNat bs) [(0, vx), (1, vy)]

theorem spriteCell_bound (s : State) (x y : Reg) (n : Nibble) (i : Nat) (h : SpriteCell s x y n i) :
    i ≤ ((s.getV y).toNat % 32 + (n.toNat - 1)) * 64 + ((s.getV x).toNat % 64 + 7) := by
  obtain ⟨row, col, h1, h2, -, rfl⟩ := h
  omega

/-- The glyph 0, whatever its bytes, in the bottom right corner: its 8 columns end at cell 2047. -/
theorem spriteFits_corner : SpriteFits (drawState 0x050 [] 56 27) 0 1 5 := by
  constructor
  · intro row h
    have h1 : (drawState 0x050 [] 56 27).I.toNat = 0x050 := by decide
    have h2 : (5 : Nibble).toNat = 5 := by decide
    omega
  · intro i h
    have := spriteCell_bound _ _ _ _ _ h
    have hb : (((drawState 0x050 [] 56 27).getV 1).toNat % 32 + ((5 : Nibble).toNat - 1)) * 64 +
      (((drawState 0x050 [] 56 27).getV 0).toNat % 64 + 7) = 2047 := by decide
    omega

/-- One row at the last byte of memory. -/
theorem spriteFits_lastByte : SpriteFits (drawState 0xFFF [0x80] 0 0) 0 1 1 := by
  constructor
  · intro row h
    have h1 : (drawState 0xFFF [0x80] 0 0).I.toNat = 0xFFF := by decide
    have h2 : (1 : Nibble).toNat = 1 := by decide
    omega
  · intro i h
    have := spriteCell_bound _ _ _ _ _ h
    have hb : (((drawState 0xFFF [0x80] 0 0).getV 1).toNat % 32 + ((1 : Nibble).toNat - 1)) * 64 +
      (((drawState 0xFFF [0x80] 0 0).getV 0).toNat % 64 + 7) = 7 := by decide
    omega

/-- A sprite that fits and has a set bit, on a dark and on a lit cell. -/
theorem witness_DrawCompletes :
    SpriteFits (drawState 0xFFF [0x80] 0 0) 0 1 1 ∧ SpriteCell (drawState 0xFFF [0x80] 0 0) 0 1 1 0 ∧
    (drawState 0xFFF [0x80] 0 0).pixel 0 = false ∧ SpriteCell (withCell (drawState 0xFFF [0x80] 0 0) 0) 0 1 1 0 ∧
    (withCell (drawState 0xFFF [0x80] 0 0) 0).pixel 0 = true :=
  ⟨spriteFits_lastByte, ⟨0, 0, by decide, by decide, by decide, by decide⟩, by decide,
   ⟨0, 0, by decide, by decide, by decide, by decide⟩, by decide⟩

theorem witness_DrawingTwiceRestoresTheFramebuffer :
    let s := drawState 0x050 [] 56 27
    (0 : Reg) ≠ 15 ∧ (1 : Reg) ≠ 15 ∧ SpriteFits s 0 1 5 ∧ ∃ t, exec (.drw 0 1 5) s = .next t :=
  ⟨by decide, by decide, spriteFits_corner, by simp only [exec, execDrw]; exact settle_next _ _⟩

/-- Row 1 of a sprite at 0xFFF is out of memory and row 0 is not. -/
theorem witness_DrawFaultsAtTheFirstConditionMet_memory :
    let s := drawState 0xFFF [0x80] 0 0
    1 < (2 : Nibble).toNat ∧ (∀ r, r < 1 → s.I.toNat + r ≤ 0xFFF) ∧
    (∀ r, r < 1 → ∀ c, c < 8 → (s.mem.read (s.I.toNat + r)).getLsbD (7 - c) = true →
      ((s.getV 1).toNat % 32 + r) * 64 + ((s.getV 0).toNat % 64 + c) ≤ 2047) ∧ 0xFFF < s.I.toNat + 1 := by decide

/-- Columns 0 to 3 of a row at (60, 31) are on the screen and column 4 is not. -/
theorem witness_DrawFaultsAtTheFirstConditionMet_cell :
    let s := drawState 0x300 [0xFF] 60 31
    let idx : Nat → Nat := fun c => ((s.getV 1).toNat % 32 + 0) * 64 + ((s.getV 0).toNat % 64 + c)
    0 < (1 : Nibble).toNat ∧ s.I.toNat + 0 ≤ 0xFFF ∧ 4 < 8 ∧ (s.mem.read (s.I.toNat + 0)).getLsbD (7 - 4) = true ∧
    2047 < idx 4 ∧ ∀ c, c < 4 → (s.mem.read (s.I.toNat + 0)).getLsbD (7 - c) = true → idx c ≤ 2047 := by decide

/-- Images of 1, 3584, 0 and 3585 bytes. -/
theorem witness_LoadCopiesTheImage :
    (1 ≤ ([0x60] : List Byte).length ∧ ([0x60] : List Byte).length ≤ 3584) ∧
    (1 ≤ (List.replicate 3584 (0 : Byte)).length ∧ (List.replicate 3584 (0 : Byte)).length ≤ 3584) ∧
    ([] : List Byte).length = 0 ∧ 3584 < (List.replicate 3585 (0 : Byte)).length := by
  rw [List.length_replicate, List.length_replicate]
  decide

theorem witness_EndedProgramsStayEnded :
    (at200 0x1200).EndedAt 0x200 ∧ (atTop 0x1F 0xFE).EndedAt 0xFFE ∧
    ∃ t, Host.Core.run core 1 (at200 0x1200) = .next t :=
  ⟨⟨by decide, by decide, by decide, by decide⟩, ⟨by decide, by decide, by decide, by decide⟩, _, rfl⟩

end Sys2Proof.Tests
end

/-! PROOFS. The fields of a word as mask and shift expressions (`spec/00_scope.md` R7, `spec/30_encoding.md` R72). -/

namespace Sys2Proof

/-- A slice of a word is what the mask of its bits leaves, shifted down to bit 0. -/
theorem toNat_extractLsb'_eq_mask_shift {m : Nat} (w : BitVec m) (lo len : Nat) :
    (w.extractLsb' lo len).toNat = (w.toNat &&& (2 ^ len - 1) <<< lo) >>> lo := by
  calc (w.extractLsb' lo len).toNat
      = (w.toNat >>> lo) % 2 ^ len := BitVec.extractLsb'_toNat ..
    _ = w.toNat >>> lo &&& (2 ^ len - 1) := (Nat.and_two_pow_sub_one_eq_mod ..).symm
    _ = (w.toNat &&& (2 ^ len - 1) <<< lo) >>> lo := by
      rw [Nat.shiftRight_and_distrib, Nat.shiftLeft_shiftRight]

/-- Settles O8: each field is a slice of the word, and each mask of the spec is the mask of that slice. -/
theorem fieldsAreTheMaskedBits : Obligations.FieldsAreTheMaskedBits := fun w =>
  ⟨toNat_extractLsb'_eq_mask_shift w 8 4, toNat_extractLsb'_eq_mask_shift w 4 4,
   toNat_extractLsb'_eq_mask_shift w 0 8, toNat_extractLsb'_eq_mask_shift w 0 12,
   toNat_extractLsb'_eq_mask_shift w 0 4⟩

end Sys2Proof

/-! PROOFS. The state: reset, who writes each part of it, the program counter, the invariant (`spec/10_state.md` R20 to
R34). `exec_effect` says once what a handler can do; the statements about writers, `pc` and the invariant cite it. -/

namespace Sys2Proof.Machine

variable {i : Instr} {s t : State}

/-! ## Reset -/

theorem reset_read (a : Nat) : State.reset.mem.read a = Memory.background a := rfl

theorem reset_pixel (j : Nat) : State.reset.pixel j = false := by simp [State.pixel, State.reset]

theorem reset_getV (x : Reg) : State.reset.getV x = 0 := by simp [State.getV, State.reset]

theorem reset_stack (k : Fin 16) : State.reset.stack[k] = 0 := by simp [State.reset]

/-- Settles O1: what nothing has written since reset reads as its background byte, which is `GLYPHS` in the glyph table and
0 outside it; the other parts are the zeros of `State.reset`. -/
theorem resetLeavesTheStatedValues : Obligations.ResetLeavesTheStatedValues := by
  refine ⟨rfl, reset_getV, rfl, rfl, reset_stack, rfl, rfl, fun j _ => reset_pixel j, rfl, rfl,
    fun j => ?_, fun a ha => ?_⟩
  · rw [reset_read, background_glyph]
  · rw [reset_read, background_zero a (by omega)]

/-- Settles O2: no byte of memory is listed, `pc` is the entry address and every slot is 0. -/
theorem resetSatisfiesTheInvariant : Obligations.ResetSatisfiesTheInvariant where
  mem := wf_nil
  pc := by decide
  stack k := by rw [reset_stack]; decide

/-! ## What a handler leaves in pc -/

/-- `pc` after the handler of `i` has completed; the handler finds it already advanced (R24, R102). `effect_pc` ties it to
exec. -/
def handlerPc (i : Instr) (s : State) : Word :=
  match i with
  | .jp nnn => zext16 nnn
  | .call nnn => zext16 nnn
  | .ret => s.stack.toList.getD (s.sp.val - 1) 0
  | .jpV0 nnn => zext16 (s.getV 0) + zext16 nnn
  | .seByte x kk => (skipIf (s.getV x == kk) s).pc
  | .sneByte x kk => (skipIf (s.getV x != kk) s).pc
  | .seReg x y => (skipIf (s.getV x == s.getV y) s).pc
  | .sneReg x y => (skipIf (s.getV x != s.getV y) s).pc
  | .skp x => (skipIf (s.keyDown (s.getV x).toNat) s).pc
  | .sknp x => (skipIf (!s.keyDown (s.getV x).toNat) s).pc
  | .ldVxK _ => if s.key = 0 then s.pc - 2 else s.pc
  | _ => s.pc

/-- A skip writes no part but `pc`. -/
theorem skipIf_eq_setPc (c : Bool) (s : State) : skipIf c s = s.setPc (skipIf c s).pc := by cases c <;> rfl

theorem getD_stack (s : State) (k : Nat) (h : k < 16) : s.stack.toList.getD k 0 = s.stack[k] := by
  simp [List.getD_eq_getElem?_getD, h]

/-- No key is the answer exactly if no flag is set. -/
theorem lowestKey_eq_none_iff (s : State) : lowestKey s = none ↔ s.key = 0 := by
  refine ⟨fun h => BitVec.eq_of_getLsbD_eq fun k hk => ?_, lowestKey_none s⟩
  simpa [State.keyDown] using List.find?_eq_none.mp h ⟨k, hk⟩ (List.mem_finRange _)

/-! ## What a handler can do -/

/-- `x` is the destination that `i` names; of a register block, its last register. -/
def NamesDestination (i : Instr) (x : Reg) : Prop :=
  (∃ kk, i = .ldByte x kk ∨ i = .addByte x kk ∨ i = .rnd x kk) ∨
  (∃ y, i = .ldReg x y ∨ i = .orReg x y ∨ i = .andReg x y ∨ i = .xorReg x y) ∨
  i = .ldVxDT x ∨ i = .ldVxK x ∨ i = .ldRegs x

/-- The instructions that can raise a fault (R201). -/
abbrev faultRaisers : List Mnemonic :=
  [.RET, .CALL_addr, .DRW_Vx__Vy__n, .LD_B__Vx, .LD__I___Vx, .LD_Vx___I, .SKP_Vx, .SKNP_Vx]

/-- The instructions that write VF as a flag (R22). -/
abbrev flagWriters : List Mnemonic := [.ADD_Vx__Vy, .SUB_Vx__Vy, .SHR_Vx, .SUBN_Vx__Vy, .SHL_Vx, .DRW_Vx__Vy__n]

/-- The instructions that write `I` (R23). -/
abbrev indexWriters : List Mnemonic := [.LD_I__addr, .ADD_I__Vx, .LD_F__Vx]

/-- The instructions that write memory (R20). -/
abbrev memoryWriters : List Mnemonic := [.LD_B__Vx, .LD__I___Vx]

/-- The instructions whose handler writes `pc` (R24). -/
abbrev pcWriters : List Mnemonic :=
  [.JP_addr, .CALL_addr, .RET, .JP_V0__addr, .SE_Vx__byte, .SNE_Vx__byte, .SE_Vx__Vy, .SNE_Vx__Vy, .SKP_Vx, .SKNP_Vx,
    .LD_Vx__K]

/-- Everything the handler of `i` can do to the state `s` it finds: which parts it writes, which instructions do so, and
whether `pc` is one of them. -/
inductive HandlerEffect (s : State) : Instr → State → Prop where
  /-- A fault is taken and nothing else happens. -/
  | fault {i : Instr} (c : Fault) (hi : i.mnemonic ∈ faultRaisers) : HandlerEffect s i (takeFault c s)
  /-- The named destination is written. -/
  | register {i : Instr} (x : Reg) (v : Byte) (hi : NamesDestination i x) (hpc : handlerPc i s = s.pc) :
      HandlerEffect s i (s.setV x v)
  /-- Registers are written, VF as a flag among them; by `DRW` also the framebuffer. -/
  | flag {i : Instr} (V : Vector Byte 16) (fb : Vector (BitVec 64) 32) (hi : i.mnemonic ∈ flagWriters)
      (hpc : handlerPc i s = s.pc) : HandlerEffect s i { s with V := V, fb := fb }
  /-- The registers V0 to Vx are written. -/
  | block (x : Reg) (V : Vector Byte 16) (hV : ∀ k : Reg, x < k → V[k] = s.V[k]) :
      HandlerEffect s (.ldRegs x) { s with V := V }
  /-- A timer, the framebuffer, or nothing is written. -/
  | device {i : Instr} (dt st : Byte) (fb : Vector (BitVec 64) 32) (hpc : handlerPc i s = s.pc) :
      HandlerEffect s i { s with DT := dt, ST := st, fb := fb }
  /-- `I` is written. -/
  | index {i : Instr} (w : Word) (hi : i.mnemonic ∈ indexWriters) (hpc : handlerPc i s = s.pc) :
      HandlerEffect s i (s.setI w)
  /-- `pc` is written. -/
  | jump {i : Instr} (hi : i.mnemonic ∈ pcWriters) : HandlerEffect s i (s.setPc (handlerPc i s))
  /-- Memory is written, and stays canonical. -/
  | store {i : Instr} (m : Memory) (hi : i.mnemonic ∈ memoryWriters) (hm : s.mem.wf → m.wf)
      (hpc : handlerPc i s = s.pc) : HandlerEffect s i { s with mem := m }
  /-- The free slot takes the return address. -/
  | call (nnn : Addr) (h : s.sp.val < 16) : HandlerEffect s (.call nnn)
      { s with stack := s.stack.set s.sp.val s.pc h, sp := ⟨s.sp.val + 1, by omega⟩, pc := handlerPc (.call nnn) s }
  /-- The last slot goes to `pc`. -/
  | ret (h : s.sp.val ≠ 0) : HandlerEffect s .ret { s with sp := ⟨s.sp.val - 1, by omega⟩, pc := handlerPc .ret s }

/-- To know something of what a handler that may fault leaves, know it of its result and of the fault taken. -/
theorem exists_settle {P : State → Prop} (s : State) (r : Except Fault State) (hok : ∀ t, r = .ok t → P t)
    (herr : ∀ c, r = .error c → P (takeFault c s)) : ∃ t, settle s r = .next t ∧ P t := by
  cases r with
  | ok t => exact ⟨t, rfl, hok t rfl⟩
  | error c => exact ⟨_, rfl, herr c rfl⟩

/-- A store that completes keeps memory canonical: all its bytes were in range. -/
theorem writeBytes_wf (vs : List Byte) (s t : State) (a : Nat) (h : writeBytes s a vs = .ok t) (hm : s.mem.wf) :
    t.mem.wf := by
  by_cases ha : a + vs.length ≤ 0x1000
  · rw [writeBytes_in vs s a ha] at h
    injection h with h
    rw [← h]
    exact wf_writeList vs s.mem a hm ha
  · cases vs with
    | nil => injection h with h; rw [← h]; exact hm
    | cons v vs => rw [writeBytes_out _ s a (by omega) (by simp)] at h; cases h

/-- A register block that is loaded leaves the registers outside its list. -/
theorem loadRegs_getV_other (rs : List Reg) (k : Reg) (hk : k ∉ rs) : ∀ (s t : State) (base : Nat),
    loadRegs s base rs = .ok t → t.getV k = s.getV k := by
  induction rs with
  | nil => intro s t base h; injection h with h; rw [h]
  | cons r rs ih =>
    intro s t base h
    rw [List.mem_cons, not_or] at hk
    simp only [loadRegs] at h
    split at h
    · rw [ih hk.2 _ t base h, getV_setV_other s r k _ (Ne.symm hk.1)]
    · cases h

/-- A store from `I` on: memory is written or the fault is taken. -/
theorem store_effect (i : Instr) (s : State) (vs : List Byte) (hi : i.mnemonic ∈ memoryWriters)
    (hpc : handlerPc i s = s.pc) : ∃ t, settle s (writeBytes s s.I.toNat vs) = .next t ∧ HandlerEffect s i t :=
  exists_settle s _ (fun t ht => writeBytes_ok vs s t _ ht ▸ .store t.mem hi (writeBytes_wf vs s t _ ht) hpc)
    (fun c _ => .fault c (List.subset_def.mp (by decide) hi))

theorem skipIf_effect (i : Instr) (s : State) (c : Bool) (hi : i.mnemonic ∈ pcWriters)
    (hpc : handlerPc i s = (skipIf c s).pc) : HandlerEffect s i (skipIf c s) := by
  rw [skipIf_eq_setPc, ← hpc]
  exact .jump hi

theorem ret_effect (s : State) : ∃ t, exec .ret s = .next t ∧ HandlerEffect s .ret t := by
  by_cases h : s.sp.val = 0
  · exact ⟨_, by rw [exec, execRet, popPc_empty s h]; rfl, .fault .stackUnderflow (by simp [Instr.mnemonic])⟩
  · refine ⟨_, ?_, .ret h⟩
    rw [exec, execRet, popPc_some s h, handlerPc, getD_stack s _ (by omega)]
    rfl

theorem call_effect (nnn : Addr) (s : State) : ∃ t, exec (.call nnn) s = .next t ∧ HandlerEffect s (.call nnn) t := by
  by_cases h : s.sp.val < 16
  · exact ⟨_, by rw [exec, execCall, pushPc_free s h]; rfl, .call nnn h⟩
  · exact ⟨_, by rw [exec, execCall, pushPc_full s (by omega)]; rfl,
      .fault .stackOverflow (by simp [Instr.mnemonic])⟩

theorem drw_effect (x y : Reg) (n : Nibble) (s : State) :
    ∃ t, exec (.drw x y n) s = .next t ∧ HandlerEffect s (.drw x y n) t :=
  exists_settle s _
    (fun t ht => drawRows_ok _ _ _ _ _ t ht ▸ .flag t.V t.fb (by simp [Instr.mnemonic]) rfl)
    (fun c _ => .fault c (by simp [Instr.mnemonic]))

theorem ldRegs_effect (x : Reg) (s : State) : ∃ t, exec (.ldRegs x) s = .next t ∧ HandlerEffect s (.ldRegs x) t :=
  exists_settle s _
    (fun t ht => loadRegs_ok _ s t _ ht ▸ .block x t.V fun k hk =>
      loadRegs_getV_other _ k (by rw [mem_regsUpTo]; exact not_le.mpr hk) s t _ ht)
    (fun c _ => .fault c (by simp [Instr.mnemonic]))

/-- The two key skips, which fault on a value beyond the keypad. -/
theorem keySkip_effect (i : Instr) (x : Reg) (s : State) (f : Bool → Bool) (hi : i.mnemonic ∈ [.SKP_Vx, .SKNP_Vx])
    (hpc : handlerPc i s = (skipIf (f (s.keyDown (s.getV x).toNat)) s).pc) :
    ∃ t, settle s ((selectedKey s x).map (fun down => skipIf (f down) s)) = .next t ∧ HandlerEffect s i t := by
  by_cases h : (s.getV x).toNat ≤ 15
  · rw [selectedKey_in s x h]
    exact ⟨_, rfl, skipIf_effect i s _ (List.subset_def.mp (by decide) hi) hpc⟩
  · rw [selectedKey_out s x (by omega)]
    exact ⟨_, rfl, .fault _ (List.subset_def.mp (by decide) hi)⟩

theorem ldVxK_effect (x : Reg) (s : State) : ∃ t, exec (.ldVxK x) s = .next t ∧ HandlerEffect s (.ldVxK x) t := by
  have hpc : handlerPc (.ldVxK x) s = if s.key = 0 then s.pc - 2 else s.pc := rfl
  cases hk : lowestKey s with
  | none =>
    rw [if_pos ((lowestKey_eq_none_iff s).mp hk)] at hpc
    refine ⟨_, ?_, .jump (by simp [Instr.mnemonic])⟩
    rw [exec, execLdVxK, hk, hpc]
  | some k =>
    have h0 : s.key ≠ 0 := fun h => by rw [(lowestKey_eq_none_iff s).mpr h] at hk; cases hk
    rw [if_neg h0] at hpc
    refine ⟨_, ?_, .register x (BitVec.ofNat 8 k.val) (.inr (.inr (.inr (.inl rfl)))) hpc⟩
    rw [exec, execLdVxK, hk]

/-- Every handler answers a next state, and has done to the state it found one of the listed things. -/
theorem exec_effect (i : Instr) (s : State) : ∃ t, exec i s = .next t ∧ HandlerEffect s i t := by
  cases i with
  | cls => exact ⟨_, rfl, .device s.DT s.ST _ rfl⟩
  | ret => exact ret_effect s
  | jp nnn => exact ⟨_, rfl, .jump (by simp [Instr.mnemonic])⟩
  | call nnn => exact call_effect nnn s
  | seByte x kk => exact ⟨_, rfl, skipIf_effect _ s _ (by simp [Instr.mnemonic]) rfl⟩
  | sneByte x kk => exact ⟨_, rfl, skipIf_effect _ s _ (by simp [Instr.mnemonic]) rfl⟩
  | seReg x y => exact ⟨_, rfl, skipIf_effect _ s _ (by simp [Instr.mnemonic]) rfl⟩
  | ldByte x kk => exact ⟨_, rfl, .register x kk (.inl ⟨kk, .inl rfl⟩) rfl⟩
  | addByte x kk => exact ⟨_, rfl, .register x _ (.inl ⟨kk, .inr (.inl rfl)⟩) rfl⟩
  | ldReg x y => exact ⟨_, rfl, .register x _ (.inr (.inl ⟨y, .inl rfl⟩)) rfl⟩
  | orReg x y => exact ⟨_, rfl, .register x _ (.inr (.inl ⟨y, .inr (.inl rfl)⟩)) rfl⟩
  | andReg x y => exact ⟨_, rfl, .register x _ (.inr (.inl ⟨y, .inr (.inr (.inl rfl))⟩)) rfl⟩
  | xorReg x y => exact ⟨_, rfl, .register x _ (.inr (.inl ⟨y, .inr (.inr (.inr rfl))⟩)) rfl⟩
  | addReg x y => exact ⟨_, rfl, .flag _ s.fb (by simp [Instr.mnemonic]) rfl⟩
  | subReg x y => exact ⟨_, rfl, .flag _ s.fb (by simp [Instr.mnemonic]) rfl⟩
  | shr x => exact ⟨_, rfl, .flag _ s.fb (by simp [Instr.mnemonic]) rfl⟩
  | subnReg x y => exact ⟨_, rfl, .flag _ s.fb (by simp [Instr.mnemonic]) rfl⟩
  | shl x => exact ⟨_, rfl, .flag _ s.fb (by simp [Instr.mnemonic]) rfl⟩
  | sneReg x y => exact ⟨_, rfl, skipIf_effect _ s _ (by simp [Instr.mnemonic]) rfl⟩
  | ldI nnn => exact ⟨_, rfl, .index _ (by simp [Instr.mnemonic]) rfl⟩
  | jpV0 nnn => exact ⟨_, rfl, .jump (by simp [Instr.mnemonic])⟩
  | rnd x kk => exact ⟨_, rfl, .register x _ (.inl ⟨kk, .inr (.inr rfl)⟩) rfl⟩
  | drw x y n => exact drw_effect x y n s
  | skp x => exact keySkip_effect (.skp x) x s id (by simp [Instr.mnemonic]) rfl
  | sknp x => exact keySkip_effect (.sknp x) x s not (by simp [Instr.mnemonic]) rfl
  | ldVxDT x => exact ⟨_, rfl, .register x _ (.inr (.inr (.inl rfl))) rfl⟩
  | ldVxK x => exact ldVxK_effect x s
  | ldDTVx x => exact ⟨_, rfl, .device _ s.ST s.fb rfl⟩
  | ldSTVx x => exact ⟨_, rfl, .device s.DT _ s.fb rfl⟩
  | addI x => exact ⟨_, rfl, .index _ (by simp [Instr.mnemonic]) rfl⟩
  | ldF x => exact ⟨_, rfl, .index _ (by simp [Instr.mnemonic]) rfl⟩
  | ldB x => exact store_effect (.ldB x) s _ (by simp [Instr.mnemonic]) rfl
  | stRegs x => exact store_effect (.stRegs x) s _ (by simp [Instr.mnemonic]) rfl
  | ldRegs x => exact ldRegs_effect x s
  | nop w => exact ⟨_, rfl, .device s.DT s.ST s.fb rfl⟩

/-- `exec_effect` for the state a handler is known to answer. -/
theorem effect_of_exec (h : exec i s = .next t) : HandlerEffect s i t := by
  obtain ⟨u, hu, he⟩ := exec_effect i s
  rw [h] at hu
  injection hu with hu
  exact hu ▸ he

/-! ## Who writes which part -/

/-- Settles O21: each clause is read off the things a handler can do. -/
theorem onlyTheListedInstructionsWriteEachPart : Obligations.OnlyTheListedInstructionsWriteEachPart := by
  intro i s t h
  have kept : ∀ {α : Type} {p : Prop} (a : α), a ≠ a → p := fun _ hne => absurd rfl hne
  cases effect_of_exec h with
  | fault c hi => exact ⟨kept _, kept _, kept _, fun _ => hi, rfl⟩
  | register | flag | block | device => exact ⟨kept _, kept _, kept _, kept _, rfl⟩
  | index w hi => exact ⟨kept _, fun _ => hi, kept _, kept _, rfl⟩
  | jump hi => exact ⟨kept _, kept _, fun _ => hi, kept _, rfl⟩
  | store m hi => exact ⟨fun _ => hi, kept _, kept _, kept _, rfl⟩
  | call | ret => exact ⟨kept _, kept _, fun _ => by simp [Instr.mnemonic], kept _, rfl⟩

/-- Settles O22: of the things a handler can do, three write registers; a named destination or a block reaches VF only if it
is VF or ends with it. -/
theorem flagRegisterChangesOnlyWhereStated : Obligations.FlagRegisterChangesOnlyWhereStated := by
  intro i s t h hne
  cases effect_of_exec h with
  | register x v hi =>
    obtain rfl : x = 15 := by
      by_contra hx
      exact hne (getV_setV_other s x 15 v hx)
    exact .inr hi
  | flag V fb hi => exact .inl hi
  | block x V hV =>
    obtain rfl : x = 15 := by
      by_contra hx
      exact hne (hV 15 (lt_of_le_of_ne (Fin.le_last x) hx))
    exact .inr (.inr (.inr (.inr (.inr rfl))))
  | fault | device | index | jump | store | call | ret => exact absurd rfl hne

/-! ## The program counter after a cycle -/

theorem effect_pc (he : HandlerEffect s i t) (ht : t.status = .running) : t.pc = handlerPc i s := by
  cases he with
  | fault => cases ht
  | register _ _ _ hpc | flag _ _ _ hpc | device _ _ _ hpc | index _ _ hpc | store _ _ _ hpc => exact hpc.symm
  | block | jump | call | ret => rfl

/-- A completed cycle fetched within memory and left the `pc` of its handler. -/
theorem step_completed_pc (hs : s.status = .running) (h : step s = .next t) (ht : t.status = .running) :
    s.pc.toNat ≤ 0xFFE ∧ t.pc = handlerPc (decodeWord s.wordAtPc) (s.advance s.wordAtPc) := by
  rcases step_cases s t h with ⟨c, hc, -⟩ | ⟨-, -, rfl⟩ | ⟨-, hp, u, hu, ⟨hur, rfl⟩ | ⟨c, -, rfl⟩⟩
  · rw [hs] at hc; cases hc
  · cases ht
  · rw [nextInput_pc, tick_pc]
    exact ⟨hp, effect_pc (effect_of_exec hu) hur⟩
  · cases ht

theorem advance_pc_toNat (w : Word) (h : s.pc.toNat ≤ 0xFFE) : (s.advance w).pc.toNat = s.pc.toNat + 2 := by
  rw [advance_pc, BitVec.toNat_add]
  exact Nat.mod_eq_of_lt (by simp; omega)

/-- From the address of the instruction, a skip is 4 or 2 on. -/
theorem skipIf_advance_pc_toNat (c : Bool) (w : Word) (h : s.pc.toNat ≤ 0xFFE) :
    (skipIf c (s.advance w)).pc.toNat = s.pc.toNat + if c then 4 else 2 := by
  have ha := advance_pc_toNat w h
  cases c
  · exact ha
  · rw [skipIf_true, setPc_pc, BitVec.toNat_add, ha]
    exact Nat.mod_eq_of_lt (by simp; omega)

/-- The offset of `JP V0` is not reduced mod 4096 (R127). -/
theorem toNat_zext16_add (v : Byte) (nnn : Addr) : (zext16 v + zext16 nnn).toNat = v.toNat + nnn.toNat := by
  bv_omega

/-- Settles O17, by cases of the instruction: `pc` is what `handlerPc` says of the advanced state, counted from the
address of the instruction. -/
theorem programCounterAfterACycle : Obligations.ProgramCounterAfterACycle := by
  intro s t hs h ht
  obtain ⟨hp, hpc⟩ := step_completed_pc hs h ht
  rw [hpc]
  generalize s.wordAtPc = w
  have skip := fun c => skipIf_advance_pc_toNat c w hp
  cases decodeWord w with
  | jp nnn | call nnn => exact BitVec.toNat_setWidth_of_le (by omega)
  | ret => rfl
  | jpV0 nnn => exact toNat_zext16_add _ nnn
  | seByte x kk => simpa [handlerPc] using skip (s.getV x == kk)
  | sneByte x kk => simpa [handlerPc] using skip (s.getV x != kk)
  | seReg x y => simpa [handlerPc] using skip (s.getV x == s.getV y)
  | sneReg x y => simpa [handlerPc] using skip (s.getV x != s.getV y)
  | skp x => exact skip (s.key.getLsbD (s.getV x).toNat)
  | sknp x =>
    have hskip := skip (!s.key.getLsbD (s.getV x).toNat)
    cases hk : s.key.getLsbD (s.getV x).toNat <;> simpa [handlerPc, State.keyDown, hk] using hskip
  | ldVxK x =>
    by_cases hk : s.key = 0
    · simp only [handlerPc, advance_key, hk, if_true, advance_pc, BitVec.add_sub_cancel, Nat.add_zero]
    · simp only [handlerPc, advance_key, hk, if_false]
      exact advance_pc_toNat w hp
  | _ => exact advance_pc_toNat w hp

/-! ## The call stack -/

/-- `F` updates only state that the handler of `i` neither reads nor writes: it commutes with the reads and writes that many
handlers share, and with those of a device if `i` is one of the instructions that reach it (R65). -/
structure OutOfReach (F : State → State) (i : Instr) : Prop where
  mem : ∀ s, (F s).mem = s.mem
  getV : ∀ s x, (F s).getV x = s.getV x
  I : ∀ s, (F s).I = s.I
  pc : ∀ s, (F s).pc = s.pc
  setMem : ∀ s m, F { s with mem := m } = { F s with mem := m }
  setV : ∀ s x v, F (s.setV x v) = (F s).setV x v
  setI : ∀ s w, F (s.setI w) = (F s).setI w
  setPc : ∀ s w, F (s.setPc w) = (F s).setPc w
  takeFault : ∀ s c, F (takeFault c s) = Machine.takeFault c (F s)
  pixel : i.mnemonic = .DRW_Vx__Vy__n → ∀ s j, (F s).pixel j = s.pixel j
  flipPixel : i.mnemonic = .DRW_Vx__Vy__n → ∀ s j h, F (s.flipPixel j h) = (F s).flipPixel j h
  clearPixels : i.mnemonic = .CLS → ∀ s, F s.clearPixels = (F s).clearPixels
  key : i.mnemonic ∈ [.SKP_Vx, .SKNP_Vx, .LD_Vx__K] → ∀ s, (F s).key = s.key
  rnd : i.mnemonic = .RND_Vx__byte → ∀ s, (F s).rnd = s.rnd
  delay : i.mnemonic = .LD_Vx__DT → ∀ s, (F s).DT = s.DT
  setDT : i.mnemonic = .LD_DT__Vx → ∀ s v, F (s.setDT v) = (F s).setDT v
  setST : i.mnemonic = .LD_ST__Vx → ∀ s v, F (s.setST v) = (F s).setST v
  popPc : i.mnemonic = .RET → ∀ s, popPc (F s) = (popPc s).map F
  pushPc : i.mnemonic = .CALL_addr → ∀ s, pushPc (F s) = (pushPc s).map F

theorem settle_comm {F : State → State} (hF : ∀ c s, F (takeFault c s) = takeFault c (F s)) (s t : State)
    (r : Except Fault State) (h : settle s r = .next t) : settle (F s) (r.map F) = .next (F t) := by
  rcases settle_cases s t r h with rfl | ⟨c, rfl, rfl⟩
  · rfl
  · exact congrArg _ (hF c s).symm

section
variable {F : State → State} (hF : OutOfReach F i)
include hF

theorem skipIf_comm (c : Bool) (s : State) : skipIf c (F s) = F (skipIf c s) := by
  cases c
  · rfl
  · rw [skipIf_true, skipIf_true, hF.pc, hF.setPc]

theorem storeBytes_comm (vs : List Byte) (h : settle s (writeBytes s s.I.toNat vs) = .next t) :
    settle (F s) (writeBytes (F s) (F s).I.toNat vs) = .next (F t) := by
  rw [hF.I, writeBytes_comm F hF.mem hF.setMem]
  exact settle_comm (fun c s => hF.takeFault s c) s t _ h

theorem keySkip_comm (x : Reg) (f : Bool → Bool) (hi : i.mnemonic ∈ [.SKP_Vx, .SKNP_Vx, .LD_Vx__K])
    (h : settle s ((selectedKey s x).map (fun down => skipIf (f down) s)) = .next t) :
    settle (F s) ((selectedKey (F s) x).map (fun down => skipIf (f down) (F s))) = .next (F t) := by
  have hk : selectedKey (F s) x = selectedKey s x := by simp only [selectedKey, State.keyDown, hF.getV, hF.key hi]
  have hm : (selectedKey s x).map (fun down => skipIf (f down) (F s)) =
      ((selectedKey s x).map (fun down => skipIf (f down) s)).map F := by
    cases selectedKey s x with
    | ok down => exact congrArg _ (skipIf_comm hF _ s)
    | error c => rfl
  rw [hk, hm]
  exact settle_comm (fun c s => hF.takeFault s c) s t _ h

theorem ldVxK_comm (x : Reg) (hi : i.mnemonic ∈ [.SKP_Vx, .SKNP_Vx, .LD_Vx__K]) (h : exec (.ldVxK x) s = .next t) :
    exec (.ldVxK x) (F s) = .next (F t) := by
  have hk : lowestKey (F s) = lowestKey s := by simp only [lowestKey, State.keyDown, hF.key hi]
  simp only [exec, execLdVxK] at h ⊢
  rw [hk]
  cases hl : lowestKey s with
  | none => rw [hl] at h; injection h with h; rw [← h, hF.setPc, hF.pc]
  | some k => rw [hl] at h; injection h with h; rw [← h, hF.setV]

theorem call_comm (nnn : Addr) (hi : i.mnemonic = .CALL_addr) (h : exec (.call nnn) s = .next t) :
    exec (.call nnn) (F s) = .next (F t) := by
  have hm : (pushPc (F s)).map (fun u => u.setPc (zext16 nnn)) =
      ((pushPc s).map (fun u => u.setPc (zext16 nnn))).map F := by
    rw [hF.pushPc hi]
    cases pushPc s with
    | ok u => exact congrArg _ (hF.setPc u _).symm
    | error c => rfl
  rw [exec, execCall, hm]
  exact settle_comm (fun c s => hF.takeFault s c) s t _ h

end

/-- A handler does the same after an update of state out of its reach, and leaves the update in place. -/
theorem exec_comm {F : State → State} (hF : OutOfReach F i) (h : exec i s = .next t) : exec i (F s) = .next (F t) := by
  have fault := fun c s => hF.takeFault s c
  cases i with
  | ret => rw [exec, execRet, hF.popPc rfl]; exact settle_comm fault s t _ h
  | call nnn => exact call_comm hF nnn rfl h
  | skp x => exact keySkip_comm hF x id (by simp [Instr.mnemonic]) h
  | sknp x => exact keySkip_comm hF x not (by simp [Instr.mnemonic]) h
  | ldVxK x => exact ldVxK_comm hF x (by simp [Instr.mnemonic]) h
  | ldB x => rw [exec, execLdB, hF.getV]; exact storeBytes_comm hF _ h
  | stRegs x => rw [exec, execStRegs, funext (hF.getV s)]; exact storeBytes_comm hF _ h
  | ldRegs x =>
    rw [exec, execLdRegs, hF.I, loadRegs_comm F hF.mem hF.setV]
    exact settle_comm fault s t _ h
  | drw x y n =>
    rw [exec, execDrw, hF.getV, hF.getV, ← hF.setV, drawRows_comm F hF.mem hF.I (hF.pixel rfl) hF.setV (hF.flipPixel rfl)]
    exact settle_comm fault s t _ h
  | seByte | sneByte | seReg | sneReg =>
    injection h with h
    subst h
    simp only [exec, execSeByte, execSneByte, execSeReg, execSneReg, hF.getV, skipIf_comm hF]
  | ldByte | addByte | ldReg | orReg | andReg | xorReg | addReg | subReg | shr | subnReg | shl =>
    injection h with h
    subst h
    simp only [exec, execLdByte, execAddByte, execLdReg, execOrReg, execAndReg, execXorReg, execAddReg, execSubReg, execShr,
      execSubnReg, execShl, subtractInto, ← hF.setV, hF.getV]
  | jp | jpV0 | ldI | addI | ldF | nop =>
    injection h with h
    subst h
    simp only [exec, execJp, execJpV0, execLdI, execAddI, execLdF, execNop, hF.getV, hF.I, hF.setPc, hF.setI]
  | cls => injection h with h; rw [← h, hF.clearPixels rfl]; rfl
  | rnd => injection h with h; rw [← h, hF.setV, exec, execRnd, hF.rnd rfl]
  | ldVxDT => injection h with h; rw [← h, hF.setV, exec, execLdVxDT, hF.delay rfl]
  | ldDTVx => injection h with h; rw [← h, hF.setDT rfl, exec, execLdDTVx, hF.getV]
  | ldSTVx => injection h with h; rw [← h, hF.setST rfl, exec, execLdSTVx, hF.getV]

/-- The call stack and its pointer are out of reach of every handler but those of `CALL` and `RET` (R25, R64). -/
theorem callStack_outOfReach (st : Vector Word 16) (p : Fin 17) (hi : i.mnemonic ∉ [.CALL_addr, .RET]) :
    OutOfReach (fun s => { s with stack := st, sp := p }) i := by
  constructor <;> intros
  case pushPc h _ => simp [h] at hi
  case popPc h _ => simp [h] at hi
  all_goals rfl

/-- Settles O20: the stack is out of the other handlers' reach; `RET` and `CALL` do what `HandlerEffect` lists. -/
theorem callStackIsReachedOnlyByCallAndRet : Obligations.CallStackIsReachedOnlyByCallAndRet := by
  intro i s t h
  refine ⟨fun hi st p => exec_comm (callStack_outOfReach st p hi) h, fun hi => ?_, fun hi k hk => ?_⟩
  · cases effect_of_exec h with
    | call => cases hi
    | _ => rfl
  · cases effect_of_exec h with
    | call nnn hsp => exact Vector.getElem_set_ne hsp k.isLt (Ne.symm hk)
    | _ => rfl

/-! ## The invariant -/

/-- The one slot a handler can write takes the `pc` it found. -/
theorem effect_stack_le (he : HandlerEffect s i t) (hpc : s.pc.toNat ≤ 0x1000)
    (hs : ∀ k : Fin 16, s.stack[k].toNat ≤ 0x1000) (k : Fin 16) : t.stack[k].toNat ≤ 0x1000 := by
  cases he with
  | call nnn hsp =>
    simp only [Fin.getElem_fin, Vector.getElem_set]
    split
    · exact hpc
    · exact hs k
  | _ => exact hs k

theorem effect_wf (he : HandlerEffect s i t) (hm : s.mem.wf) : t.mem.wf := by
  cases he with
  | store m _ hwf => exact hwf hm
  | _ => exact hm

/-- The largest `pc` a completed cycle leaves is that of `JP V0` (R24). -/
theorem step_completed_pc_le (hs : s.status = .running) (h : step s = .next t) (ht : t.status = .running)
    (hst : ∀ k : Fin 16, s.stack[k].toNat ≤ 0x1000) : t.pc.toNat ≤ 0x10FE := by
  have hp := (step_completed_pc hs h ht).1
  rw [programCounterAfterACycle s t hs h ht]
  cases decodeWord s.wordAtPc with
  | ret =>
    change (s.stack.toList.getD (s.sp.val - 1) 0).toNat ≤ 0x10FE
    rw [getD_stack s _ (by omega)]
    exact (hst ⟨s.sp.val - 1, by omega⟩).trans (by decide)
  | jp nnn | call nnn =>
    change nnn.toNat ≤ 0x10FE
    omega
  | jpV0 nnn =>
    change (s.getV 0).toNat + nnn.toNat ≤ 0x10FE
    omega
  | seByte | sneByte | seReg | sneReg | skp | sknp | ldVxK =>
    change s.pc.toNat + ite _ _ _ ≤ 0x10FE
    split <;> omega
  | _ =>
    change s.pc.toNat + 2 ≤ 0x10FE
    omega

/-- Settles O3: a fault changes only the status; a completed cycle keeps memory canonical, pushes at most 0x1000, and its
`pc` is bounded by O17. -/
theorem stepKeepsTheInvariant : Obligations.StepKeepsTheInvariant := by
  intro s t hi h
  rcases step_cases s t h with ⟨c, -, rfl⟩ | ⟨-, -, rfl⟩ | ⟨hs, hp, u, hu, ⟨hur, rfl⟩ | ⟨c, -, rfl⟩⟩
  · exact hi
  · exact ⟨hi.mem, hi.pc, hi.stack⟩
  · have he := effect_of_exec hu
    have ha := advance_pc_toNat (s.mem.read s.pc.toNat ++ s.mem.read (s.pc.toNat + 1)) hp
    exact ⟨by simpa using effect_wf he hi.mem, step_completed_pc_le hs h (by simpa using hur) hi.stack,
      fun k => by simpa using effect_stack_le he (by omega) hi.stack k⟩
  · exact ⟨hi.mem, hi.pc, hi.stack⟩

end Sys2Proof.Machine

/-! PROOFS. Memory and the devices: which handlers reach a device, data addresses beyond memory, what a register store leaves
to a later load or fetch (`spec/20_memory.md` R55 to R65; `spec/43_index_memory.md` R163 to R165). -/

namespace Sys2Proof.Machine

variable {i : Instr} {s t : State}

/-! ## The devices (R65): an update of one is out of reach of every handler but its own -/

/-- An update of devices that leaves the ones `i` reaches is out of reach of the handler of `i`. -/
theorem devices_outOfReach (fb : Vector (BitVec 64) 32 → Vector (BitVec 64) 32) (key : Word → Word) (dt st : Byte → Byte)
    (hfb : i.mnemonic ∈ [.CLS, .DRW_Vx__Vy__n] → fb = id)
    (hkey : i.mnemonic ∈ [.SKP_Vx, .SKNP_Vx, .LD_Vx__K] → key = id)
    (hdt : i.mnemonic ∈ [.LD_Vx__DT, .LD_DT__Vx] → dt = id) (hst : i.mnemonic = .LD_ST__Vx → st = id) :
    OutOfReach (fun s => { s with fb := fb s.fb, key := key s.key, DT := dt s.DT, ST := st s.ST }) i := by
  constructor <;> intros
  case pixel h _ _ => obtain rfl := hfb (by simp [h]); rfl
  case flipPixel h _ _ _ => obtain rfl := hfb (by simp [h]); rfl
  case clearPixels h _ => obtain rfl := hfb (by simp [h]); rfl
  case key h _ => obtain rfl := hkey h; rfl
  case delay h _ => obtain rfl := hdt (by simp [h]); rfl
  case setDT h _ _ => obtain rfl := hdt (by simp [h]); rfl
  case setST h _ _ => obtain rfl := hst h; rfl
  case popPc s =>
    by_cases h : s.sp.val = 0
    · rw [popPc_empty s h]; exact popPc_empty _ h
    · rw [popPc_some s h]; exact popPc_some _ h
  case pushPc s =>
    by_cases h : s.sp.val < 16
    · rw [pushPc_free s h]; exact pushPc_free _ (by exact h)
    · have h : s.sp.val = 16 := by omega
      rw [pushPc_full s h]; exact pushPc_full _ h
  all_goals rfl

/-- Settles O19: a handler commutes with the update of a device that is out of its reach. -/
theorem devicesAreReachedOnlyByTheirInstructions : Obligations.DevicesAreReachedOnlyByTheirInstructions := by
  have kept : ∀ {α : Type} {p : Prop}, p → (id : α → α) = id := fun _ => rfl
  intro i s t h
  refine ⟨fun hi fb => ?_, fun hi k => ?_, fun hi d => ?_, fun hi d => ?_⟩
  · exact exec_comm (devices_outOfReach (fun _ => fb) id id id (absurd · hi) kept kept kept) h
  · exact exec_comm (devices_outOfReach id (fun _ => k) id id kept (absurd · hi) kept kept) h
  · exact exec_comm (devices_outOfReach id id (fun _ => d) id kept kept (absurd · hi) kept) h
  · exact exec_comm (devices_outOfReach id id id (fun _ => d) kept kept kept (absurd · hi)) h

/-! ## Data addresses beyond memory (R55, decision D8) -/

/-- A store with a byte beyond memory takes the fault of the first such address. -/
theorem settle_writeBytes_out (s : State) (a : Nat) (vs : List Byte) (h : 0x1000 < a + vs.length) (hvs : vs ≠ []) :
    settle s (writeBytes s a vs) = .next (takeFault (.memAddress (max a 0x1000)) s) := by
  rw [writeBytes_out vs s a h hvs, settle_error]

/-- A register load that completes has read no byte beyond memory. -/
theorem loadRegs_ok_in_range (rs : List Reg) : ∀ (s t : State) (base : Nat), loadRegs s base rs = .ok t →
    ∀ r ∈ rs, base + r.val ≤ 0xFFF := by
  induction rs with
  | nil => intro s t base _ r hr; cases hr
  | cons q rs ih =>
    intro s t base h
    by_cases hq : base + q.val ≤ 0xFFF
    · simp only [loadRegs, readByte_in _ _ hq] at h
      exact List.forall_mem_cons.mpr ⟨hq, ih _ t base h⟩
    · simp only [loadRegs, readByte_out _ _ (Nat.lt_of_not_le hq)] at h
      cases h

/-- A load of V0 to Vx with a byte beyond memory names the first such address. -/
theorem loadRegs_upTo_out (x : Reg) (s : State) (base : Nat) (h : 0xFFF < base + x.val) :
    loadRegs s base (regsUpTo x) = .error (.memAddress (max base 0x1000)) := by
  cases hr : loadRegs s base (regsUpTo x) with
  | ok t =>
    have := loadRegs_ok_in_range _ s t base hr x ((mem_regsUpTo x x).mpr le_rfl)
    omega
  | error c => rw [(loadRegs_upTo_error x s base c hr).1]

/-- Settles O47: the last of the bytes is beyond memory, and the fault is taken from the state the handler found. -/
theorem dataAddressesBeyondMemoryFault : Obligations.DataAddressesBeyondMemoryFault := by
  refine fun s x => ⟨fun h => ?_, fun h => ⟨?_, ?_⟩⟩
  · exact settle_writeBytes_out s _ (decimalDigits (s.getV x)) (show 0x1000 < s.I.toNat + 3 by omega) (List.cons_ne_nil _ _)
  · have hlen : ((regsUpTo x).map s.getV).length = x.val + 1 := by rw [List.length_map, length_regsUpTo]
    exact settle_writeBytes_out s _ _ (by omega) (List.ne_nil_of_length_eq_add_one hlen)
  · rw [exec, execLdRegs, loadRegs_upTo_out x s _ h, settle_error]
    rfl

/-! ## Storing and loading V0 to Vx within memory (R164, R165) -/

theorem exec_stRegs_in (x : Reg) (h : s.I.toNat + x.val ≤ 0xFFF) :
    exec (.stRegs x) s = .next { s with mem := s.mem.writeList s.I.toNat ((regsUpTo x).map s.getV) } := by
  rw [exec, execStRegs, writeBytes_in _ s _ (by rw [List.length_map, length_regsUpTo]; omega), settle_ok]

/-- Of the bytes stored from V0 to Vx, the one at offset `k` is V[k]. -/
theorem read_writeList_regsUpTo (m : Memory) (a : Nat) (f : Reg → Byte) (x k : Reg) (h : k ≤ x) :
    (m.writeList a ((regsUpTo x).map f)).read (a + k.val) = f k := by
  have hk : k.val < x.val + 1 := Nat.lt_succ_of_le h
  have hget : (regsUpTo x)[k.val]? = some k := by
    rw [List.getElem?_eq_getElem (by rw [length_regsUpTo]; exact hk), getElem_regsUpTo x k hk]
  rw [read_writeList, if_pos (Nat.le_add_right ..), Nat.add_sub_cancel_left, List.getElem?_map, hget]
  rfl

theorem exec_ldRegs_in (x : Reg) (h : s.I.toNat + x.val ≤ 0xFFF) :
    ∃ V, exec (.ldRegs x) s = .next { s with V := V } ∧
      ∀ k : Reg, V[k] = if k ≤ x then s.mem.read (s.I.toNat + k.val) else s.V[k] := by
  obtain ⟨V, hV, hk⟩ := loadRegs_in s.I.toNat (regsUpTo x) s
    (fun r hr => (Nat.add_le_add_left ((mem_regsUpTo x r).mp hr) _).trans h)
    ((List.nodup_finRange 16).sublist (List.take_sublist ..))
  refine ⟨V, by rw [exec, execLdRegs, hV, settle_ok], fun k => ?_⟩
  simpa only [mem_regsUpTo] using hk k

/-- Settles O48: a register store leaves `I` and puts V[k] at `I + k`, where the load reads it. -/
theorem loadAfterStoreRestoresRegisters : Obligations.LoadAfterStoreRestoresRegisters := by
  intro s t x V h hst
  rw [exec_stRegs_in x h] at hst
  injection hst with hst
  subst hst
  obtain ⟨V', hld, hV'⟩ := exec_ldRegs_in (s :=
    { s with mem := s.mem.writeList s.I.toNat ((regsUpTo x).map s.getV), V := V }) x h
  refine ⟨_, hld, fun k hk => ?_⟩
  calc V'[k] = (s.mem.writeList s.I.toNat ((regsUpTo x).map s.getV)).read (s.I.toNat + k.val) := by rw [hV', if_pos hk]
    _ = s.getV k := read_writeList_regsUpTo _ _ _ x k hk

/-! ## Fetching what was stored (R62, R101) -/

/-- A completed cycle leaves in `opcode` the word it fetched (R31): no handler writes it. -/
theorem step_completed_opcode (h : step s = .next t) (hs : s.status = .running) (ht : t.status = .running) :
    t.opcode = s.wordAtPc := by
  rcases step_cases s t h with ⟨c, hc, -⟩ | ⟨-, -, rfl⟩ | ⟨-, -, u, hu, ⟨-, rfl⟩ | ⟨c, -, rfl⟩⟩
  · rw [hs] at hc; cases hc
  · cases ht
  · obtain ⟨-, -, -, -, hop⟩ := onlyTheListedInstructionsWriteEachPart _ _ _ hu
    rw [nextInput_opcode, tick_opcode, hop]
    rfl
  · cases ht

theorem wordAtPc_toNat (s : State) :
    s.wordAtPc.toNat = 256 * (s.mem.read s.pc.toNat).toNat + (s.mem.read (s.pc.toNat + 1)).toNat := by
  rw [State.wordAtPc, BitVec.toNat_append, ← Nat.shiftLeft_add_eq_or_of_lt (BitVec.isLt _), Nat.shiftLeft_eq, Nat.mul_comm]

/-- Settles O49: the store puts V0 and V1 at `pc` and `pc + 1`, the bytes of the word that the next cycle fetches. -/
theorem storedBytesAreFetchedByTheNextCycle : Obligations.StoredBytesAreFetchedByTheNextCycle := by
  intro s t u x hs hx hI h hst hstep hu
  rw [exec_stRegs_in x h] at hst
  injection hst with hst
  subst hst
  have stored := read_writeList_regsUpTo s.mem s.I.toNat s.getV x
  rw [step_completed_opcode hstep hs hu, wordAtPc_toNat, ← hI]
  exact congrArg₂ (fun a b : Byte => 256 * a.toNat + b.toNat) (stored 0 (Fin.zero_le x)) (stored 1 hx)

end Sys2Proof.Machine

/-! PROOFS. The encoding: what the decoder selects, encode and decode, the one row of a word (`spec/30_encoding.md` R70 to
R81), and that every step answers a next state. `decodeWord_selects` walks through the decoder once; the statements about
every word cite it. -/

namespace Sys2Proof

open Laws

variable {v w : Word}

/-! ## What the decoder selects -/

/-- The words `v` and `w` agree in the dispatch keys of R73: the top nibble, in three families the low nibble, in the fourth
the low byte. -/
structure SameKeys (v w : Word) : Prop where
  op : opField v = opField w
  low : opField v = 0x0 ∨ opField v = 0x8 ∨ opField v = 0xE → nField v = nField w
  byte : opField v = 0xF → kkField v = kkField w

/-- What a decoder must select for the word `w`: the no-op handler if `w` is unmapped, else a named instruction whose own
word agrees with `w` in the dispatch keys. `decodeWord_selects` ties it to the decoder. -/
inductive Selects (w : Word) : Instr → Prop where
  | nop (hu : unmappedWord w = true) : Selects w (.nop w)
  | named {i : Instr} (hi : i.mnemonic ≠ .NOP) (hu : unmappedWord w = false) (hk : SameKeys (encode i) w) : Selects w i

theorem wf_of_named {i : Instr} (h : i.mnemonic ≠ .NOP) : i.wf = true := by
  cases i with
  | nop w => exact absurd rfl h
  | _ => rfl

theorem Selects.wf {i : Instr} (h : Selects w i) : i.wf = true := by
  cases h with
  | nop hu => exact hu
  | named hi => exact wf_of_named hi

theorem Selects.unmapped_iff {i : Instr} (h : Selects w i) : unmappedWord w = true ↔ i = .nop w := by
  cases h with
  | nop hu => exact ⟨fun _ => rfl, fun _ => hu⟩
  | named hi hu => exact ⟨fun h => absurd (hu ▸ h) Bool.false_ne_true, fun h => absurd (h ▸ rfl) hi⟩

/-- The word of the selected instruction and the word that selected it have the same dispatch keys. -/
theorem Selects.sameKeys {i : Instr} (h : Selects w i) : SameKeys (encode i) w := by
  cases h with
  | nop => exact ⟨rfl, fun _ => rfl, fun _ => rfl⟩
  | named _ _ hk => exact hk

/-- Outside the four families the top nibble is the only key. -/
theorem selects_direct {i : Instr} (h : opField w ∉ [0x0, 0x8, 0xE, 0xF]) (hi : i.mnemonic ≠ .NOP)
    (hop : opField (encode i) = opField w) : Selects w i := by
  simp only [List.mem_cons, List.not_mem_nil, or_false, not_or] at h
  obtain ⟨h0, h8, hE, hF⟩ := h
  refine .named hi ?_ ⟨hop, ?_, fun h => absurd (hop ▸ h) hF⟩
  · unfold unmappedWord
    split
    case h_1 h => exact absurd (BitVec.eq_of_toNat_eq h) h0
    case h_2 h => exact absurd (BitVec.eq_of_toNat_eq h) h8
    case h_3 h => exact absurd (BitVec.eq_of_toNat_eq h) hE
    case h_4 h => exact absurd (BitVec.eq_of_toNat_eq h) hF
    case h_5 => rfl
  · rw [hop]
    rintro (h | h | h)
    exacts [absurd h h0, absurd h h8, absurd h hE]

/-- In three families the low nibble is the second key. -/
theorem selects_low {i : Instr} (hop : opField (encode i) = opField w) (hF : opField w ≠ 0xF) (hi : i.mnemonic ≠ .NOP)
    (hu : unmappedWord w = false) (hn : (nField (encode i)).toNat = (nField w).toNat) : Selects w i :=
  .named hi hu ⟨hop, fun _ => BitVec.eq_of_toNat_eq hn, fun h => absurd (hop ▸ h) hF⟩

theorem decodeFamily0_selects (h : opField w = 0x0) : Selects w (decodeFamily0 w) := by
  unfold decodeFamily0
  split
  case h_3 => exact .nop (by simp_all [unmappedWord])
  all_goals
    next hn => exact selects_low h.symm (by simp [h]) nofun (by simp [unmappedWord, h, hn]) hn.symm

theorem decodeFamily8_selects (h : opField w = 0x8) : Selects w (decodeFamily8 w) := by
  unfold decodeFamily8
  split
  case h_10 => exact .nop (by simp only [imp_false] at *; simp [unmappedWord, h]; omega)
  all_goals
    next hn =>
      exact selects_low (by simp [encode, h]) (by simp [h]) nofun (by simp [unmappedWord, h, hn]) (by simp [encode, hn])

theorem decodeFamilyE_selects (h : opField w = 0xE) : Selects w (decodeFamilyE w) := by
  unfold decodeFamilyE
  split
  case h_3 => exact .nop (by simp_all [unmappedWord])
  all_goals
    next hn =>
      exact selects_low (by simp [encode, h]) (by simp [h]) nofun (by simp [unmappedWord, h, hn])
        (by simp [encode, nField_wordXKK, hn])

theorem decodeFamilyF_selects (h : opField w = 0xF) : Selects w (decodeFamilyF w) := by
  unfold decodeFamilyF
  split
  case h_10 => exact .nop (by simp_all [unmappedWord])
  all_goals
    next hk =>
      exact .named nofun (by simp [unmappedWord, h, hk])
        ⟨by simp [encode, h], by simp [encode], fun _ => BitVec.eq_of_toNat_eq (by simp [encode, hk])⟩

/-- What the decoder selects, by the branches of its two stages. -/
theorem decodeWord_selects (w : Word) : Selects w (decodeWord w) := by
  unfold decodeWord
  split
  case h_1 h => exact decodeFamily0_selects (BitVec.eq_of_toNat_eq h)
  case h_9 h => exact decodeFamily8_selects (BitVec.eq_of_toNat_eq h)
  case h_15 h => exact decodeFamilyE_selects (BitVec.eq_of_toNat_eq h)
  case h_16 =>
    have hF : opField w = 0xF := BitVec.eq_of_toNat_eq (by simp only [imp_false] at *; simp; omega)
    exact decodeFamilyF_selects hF
  all_goals
    next h => exact selects_direct (by simp [← BitVec.toNat_inj, h]) nofun (BitVec.eq_of_toNat_eq (by simp [encode, h]))

/-! ## Encode, then decode (R70 to R81) -/

theorem decodeWord_encode (i : Instr) (hwf : i.wf = true) : decodeWord (encode i) = i := by
  cases i with
  | cls | ret => rfl
  | jp nnn | call nnn | ldI nnn | jpV0 nnn => simp [encode, decodeWord]
  | seByte x kk | sneByte x kk | ldByte x kk | addByte x kk | rnd x kk => simp [encode, decodeWord]
  | seReg x y | sneReg x y | drw x y n => simp [encode, decodeWord]
  | ldReg x y | orReg x y | andReg x y | xorReg x y | addReg x y | subReg x y | subnReg x y | shr x | shl x =>
    simp [encode, decodeWord, decodeFamily8]
  | skp x | sknp x => simp [encode, decodeWord, decodeFamilyE, nField_wordXKK]
  | ldVxDT x | ldVxK x | ldDTVx x | ldSTVx x | addI x | ldF x | ldB x | stRegs x | ldRegs x =>
    simp [encode, decodeWord, decodeFamilyF]
  | nop w => exact (decodeWord_selects w).unmapped_iff.mp hwf

/-- Settles O4: the bytes are those of the instruction's word, and the word decodes to the instruction. -/
theorem decodeOfEncodeIsTheInstruction : Obligations.DecodeOfEncodeIsTheInstruction := by
  intro i rest hwf
  rw [encodeBytes, decode_bytesOfWord, decodeWord_encode i hwf]

/-- Settles O5: the selected instruction is well formed, so its own word decodes to it. -/
theorem everyWordDecodesToAWellFormedInstruction : Obligations.EveryWordDecodesToAWellFormedInstruction := fun w =>
  have hs := decodeWord_selects w
  ⟨hs.wf, decodeWord_encode _ hs.wf, hs.unmapped_iff⟩

/-! ## Selection reads only the dispatch keys (R73) -/

theorem lowFamilies_mnemonic (h : nField v = nField w) :
    (decodeFamily0 v).mnemonic = (decodeFamily0 w).mnemonic ∧ (decodeFamily8 v).mnemonic = (decodeFamily8 w).mnemonic ∧
      (decodeFamilyE v).mnemonic = (decodeFamilyE w).mnemonic := by
  unfold decodeFamily0 decodeFamily8 decodeFamilyE
  rw [h]
  refine ⟨?_, ?_, ?_⟩ <;> split <;> rfl

theorem decodeFamilyF_mnemonic (h : kkField v = kkField w) : (decodeFamilyF v).mnemonic = (decodeFamilyF w).mnemonic := by
  unfold decodeFamilyF
  rw [h]
  split <;> rfl

/-- Settles O7, by the branches of the first stage; a family's branch reads its second key. -/
theorem selectionReadsOnlyTheDispatchKeys : Obligations.SelectionReadsOnlyTheDispatchKeys := by
  intro v w hop hn hk
  rw [hop] at hn hk
  unfold decodeWord
  rw [hop]
  split
  case h_1 h =>
    obtain ⟨h0, -, -⟩ := lowFamilies_mnemonic (hn (.inl (BitVec.eq_of_toNat_eq h)))
    exact h0
  case h_9 h =>
    obtain ⟨-, h8, -⟩ := lowFamilies_mnemonic (hn (.inr (.inl (BitVec.eq_of_toNat_eq h))))
    exact h8
  case h_15 h =>
    obtain ⟨-, -, hE⟩ := lowFamilies_mnemonic (hn (.inr (.inr (BitVec.eq_of_toNat_eq h))))
    exact hE
  case h_16 =>
    have hF : opField w = 0xF := BitVec.eq_of_toNat_eq (by simp only [imp_false] at *; simp; omega)
    exact decodeFamilyF_mnemonic (hk hF)
  all_goals rfl

/-! ## The one row of a word (R80) -/

/-- The bits of the dispatch keys, given the top nibble (R73). -/
def keyMask (op : Nibble) : Word :=
  match op.toNat with
  | 0x0 | 0x8 | 0xE => 0xF00F
  | 0xF => 0xF0FF
  | _ => 0xF000

/-- A word as its four nibbles. -/
theorem word_eq_wordXYN (w : Word) : w = wordXYN (opField w) (xField w) (yField w) (nField w) := by
  change w = w.extractLsb' 12 4 ++ w.extractLsb' 8 4 ++ w.extractLsb' 4 4 ++ w.extractLsb' 0 4
  simp only [BitVec.extractLsb'_append_extractLsb'_eq_extractLsb', BitVec.extractLsb'_eq_self]

theorem and_F000_of_op (h : opField v = opField w) : v &&& 0xF000 = w &&& 0xF000 := by
  rw [word_eq_wordXYN v, word_eq_wordXYN w, wordXYN_and_F000, wordXYN_and_F000, h]

theorem and_F00F_of_op_low (h : opField v = opField w) (hn : nField v = nField w) : v &&& 0xF00F = w &&& 0xF00F := by
  rw [word_eq_wordXYN v, word_eq_wordXYN w, wordXYN_and_F00F, wordXYN_and_F00F, h, hn]

theorem SameKeys.and_keyMask (h : SameKeys v w) : v &&& keyMask (opField v) = w &&& keyMask (opField v) := by
  unfold keyMask
  split
  case h_1 h0 => exact and_F00F_of_op_low h.op (h.low (.inl (BitVec.eq_of_toNat_eq h0)))
  case h_2 h8 => exact and_F00F_of_op_low h.op (h.low (.inr (.inl (BitVec.eq_of_toNat_eq h8))))
  case h_3 hE => exact and_F00F_of_op_low h.op (h.low (.inr (.inr (BitVec.eq_of_toNat_eq hE))))
  case h_4 hF => rw [and_F0FF, and_F0FF, h.op, h.byte (BitVec.eq_of_toNat_eq hF)]
  case h_5 => exact and_F000_of_op h.op

/-- A row looks at the top nibble, and at no bit but those of the dispatch keys of its own top nibble. -/
theorem rows_read_keys : ∀ r ∈ opcodeTable,
    opField r.mask = BitVec.allOnes 4 ∧ keyMask (opField r.key) &&& r.mask = r.mask := by decide +kernel

/-- No two rows are met by one word: on the bits both look at, their keys differ. -/
theorem rows_exclusive : ∀ r ∈ opcodeTable, ∀ r' ∈ opcodeTable, r.key &&& r'.mask = r'.key &&& r.mask → r' = r := by
  decide +kernel

theorem OpcodeRow.matches_iff (r : OpcodeRow) (w : Word) : r.matches w = true ↔ w &&& r.mask = r.key := beq_iff_eq

theorem eq_of_matches {r r' : OpcodeRow} (hr : r ∈ opcodeTable) (hr' : r' ∈ opcodeTable) (h : r.matches w = true)
    (h' : r'.matches w = true) : r' = r := by
  rw [OpcodeRow.matches_iff] at h h'
  refine rows_exclusive r hr r' hr' ?_
  rw [← h, ← h', BitVec.and_assoc, BitVec.and_assoc, BitVec.and_comm r.mask]

theorem opField_key {r : OpcodeRow} (hr : r ∈ opcodeTable) (h : r.matches w = true) : opField r.key = opField w := by
  rw [OpcodeRow.matches_iff] at h
  obtain ⟨hop, -⟩ := rows_read_keys r hr
  calc opField r.key = opField w &&& opField r.mask := h ▸ BitVec.extractLsb'_and
    _ = opField w := by rw [hop, BitVec.and_allOnes]

/-- Words with the same dispatch keys lie in the same row. -/
theorem matches_of_sameKeys {r : OpcodeRow} (hr : r ∈ opcodeTable) (hk : SameKeys v w) (h : r.matches v = true) :
    r.matches w = true := by
  have hm : keyMask (opField v) &&& r.mask = r.mask := opField_key hr h ▸ (rows_read_keys r hr).2
  rw [OpcodeRow.matches_iff] at h ⊢
  calc w &&& r.mask = (w &&& keyMask (opField v)) &&& r.mask := by rw [BitVec.and_assoc, hm]
    _ = (v &&& keyMask (opField v)) &&& r.mask := by rw [hk.and_keyMask]
    _ = r.key := by rw [BitVec.and_assoc, hm, h]

open EncodesInItsRow in
/-- The family of `Sys2Proof/Laws/PerInstr.lean`, put together. -/
theorem encodesInItsRow (i : Instr) : EncodesInItsRow.Statement i :=
  match i with
  | .cls => cls
  | .ret => ret
  | .jp nnn => jp nnn
  | .call nnn => call nnn
  | .seByte x kk => seByte x kk
  | .sneByte x kk => sneByte x kk
  | .seReg x y => seReg x y
  | .ldByte x kk => ldByte x kk
  | .addByte x kk => addByte x kk
  | .ldReg x y => ldReg x y
  | .orReg x y => orReg x y
  | .andReg x y => andReg x y
  | .xorReg x y => xorReg x y
  | .addReg x y => addReg x y
  | .subReg x y => subReg x y
  | .shr x => shr x
  | .subnReg x y => subnReg x y
  | .shl x => shl x
  | .sneReg x y => sneReg x y
  | .ldI nnn => ldI nnn
  | .jpV0 nnn => jpV0 nnn
  | .rnd x kk => rnd x kk
  | .drw x y n => drw x y n
  | .skp x => skp x
  | .sknp x => sknp x
  | .ldVxDT x => ldVxDT x
  | .ldVxK x => ldVxK x
  | .ldDTVx x => ldDTVx x
  | .ldSTVx x => ldSTVx x
  | .addI x => addI x
  | .ldF x => ldF x
  | .ldB x => ldB x
  | .stRegs x => stRegs x
  | .ldRegs x => ldRegs x
  | .nop w => nop w

/-- Settles O6: the row that the selected instruction's own word lies in covers `w` too, as rows look at the dispatch keys
only; no other row covers a word of this one. -/
theorem everyWordMatchesExactlyItsRowOfTheTable : Obligations.EveryWordMatchesExactlyItsRowOfTheTable := by
  intro w
  have hs := decodeWord_selects w
  obtain ⟨r, hr, hname, henc⟩ := encodesInItsRow (decodeWord w) hs.wf
  have hw := matches_of_sameKeys hr hs.sameKeys henc
  exact ⟨r, hr, hw, hname, fun r' hr' h' => eq_of_matches hr hr' hw h'⟩

end Sys2Proof

namespace Sys2Proof.Machine

/-- Settles O11: no handler stops the model (`exec_effect`), and the other ends of a cycle are states too. -/
theorem everyStepAnswersANextState : Obligations.EveryStepAnswersANextState := by
  intro s
  cases hs : s.status with
  | faulted c => exact ⟨s, step_faulted s c hs⟩
  | running =>
    by_cases hp : s.pc.toNat ≤ 0xFFE
    · obtain ⟨u, hu, -⟩ := exec_effect (decodeWord s.wordAtPc) (s.advance s.wordAtPc)
      exact ⟨endCycle s u, (step_fetch_in s hs hp).trans (congrArg (finishCycle s) hu)⟩
    · exact ⟨_, step_fetch_out s hs (Nat.lt_of_not_le hp)⟩

end Sys2Proof.Machine

/-! PROOFS. The cycle and the dispatch: fetch, handler, tick, faults, the timers over many cycles, the inputs
(`spec/40_cycle_and_dispatch.md` R100 to R108). `step_of_exec` and `exec_of_completed` say once how a cycle and its handler
belong together; the statements about cycles cite them. -/

namespace Sys2Proof.Machine

variable {i : Instr} {s t u : State}

/-! ## A cycle and its handler -/

/-- A cycle that fetches ends as its handler's answer says (R100). -/
theorem step_of_exec (hs : s.status = .running) (hp : s.pc.toNat ≤ 0xFFE)
    (hu : exec (decodeWord s.wordAtPc) (s.advance s.wordAtPc) = .next u) : step s = .next (endCycle s u) :=
  (step_fetch_in s hs hp).trans (congrArg (finishCycle s) hu)

/-- A completed cycle ran a handler that completed, then the tick, and took the next inputs. -/
theorem exec_of_completed (hs : s.status = .running) (h : step s = .next t) (ht : t.status = .running) :
    ∃ u, exec (decodeWord s.wordAtPc) (s.advance s.wordAtPc) = .next u ∧ t = u.tick.nextInput := by
  rcases step_cases s t h with ⟨c, hc, -⟩ | ⟨-, -, rfl⟩ | ⟨-, -, u, hu, ⟨-, htu⟩ | ⟨c, -, rfl⟩⟩
  · rw [hs] at hc; cases hc
  · cases ht
  · exact ⟨u, hu, htu⟩
  · cases ht

/-- Two bytes decode to the instruction of the word they make, high byte first (R56). -/
theorem decodeWord_wordAtPc (h : decode [s.mem.read s.pc.toNat, s.mem.read (s.pc.toNat + 1)] = .ok (i, [])) :
    decodeWord s.wordAtPc = i := by
  injection h with h
  injection h

/-- What ends a completed cycle changes the timers and the inputs and nothing else. -/
theorem unchanged_tick_nextInput (s : State) : UnchangedButList [.delay, .sound, .input] s s.tick.nextInput :=
  (unchanged_tick s (by simp) (by simp)).trans (unchanged_nextInput s.tick (by simp))

/-- Settles O10: the handler answers some state (`exec_effect`), and `endCycle` of that state is what the step answers. -/
theorem stepRunsTheDecodedInstruction : Obligations.StepRunsTheDecodedInstruction := by
  intro s i hs hp hdec
  obtain rfl := decodeWord_wordAtPc hdec
  obtain ⟨u, hu, -⟩ := exec_effect (decodeWord s.wordAtPc) (s.advance s.wordAtPc)
  have hstep := step_of_exec hs hp hu
  refine ⟨u, hu, fun hr => ?_, fun c hc => ?_⟩
  · rw [endCycle_running s u hr] at hstep
    refine ⟨_, hstep, ?_, ?_, nextInput_cycles _, nextInput_supplied u.tick, unchanged_tick_nextInput u⟩
    · rw [nextInput_DT, tick_DT, countDown_toNat]
    · rw [nextInput_ST, tick_ST, countDown_toNat]
  · rw [hstep, endCycle_faulted s u c hc, takeFault]

/-- Settles O12: the fetch faults beyond 0xFFE, and `opcode` keeps the word it read below. -/
theorem fetchIsBigEndianAndFaultsBeyondMemory : Obligations.FetchIsBigEndianAndFaultsBeyondMemory :=
  fun s hs => ⟨step_fetch_out s hs, fun _ t h ht => by rw [step_completed_opcode h hs ht, wordAtPc_toNat]⟩

/-- Settles O13: of the ways a step can end (`step_cases`), the faulted ones take the fault from the state before it. -/
theorem faultsArePreciseAndTerminal : Obligations.FaultsArePreciseAndTerminal := by
  refine ⟨fun s t c hs h ht => ?_, step_faulted⟩
  rcases step_cases s t h with ⟨c', hc', -⟩ | ⟨-, -, rfl⟩ | ⟨-, -, u, -, ⟨hu, rfl⟩ | ⟨c', -, rfl⟩⟩
  · rw [hs] at hc'; cases hc'
  · injection ht with ht; rw [← ht, takeFault]
  · rw [nextInput_status, tick_status, hu] at ht; cases ht
  · injection ht with ht; rw [← ht, takeFault]

/-- Settles O37: the no-op handler answers the state it found (R107). -/
theorem noOpChangesNothing : Obligations.NoOpChangesNothing := fun _ _ => rfl

/-! ## The timers (R105) -/

/-- `DT` after the handler of `i`, before the tick (R184). `exec_DT` ties it to exec. -/
def handlerDelay (i : Instr) (s : State) : Byte :=
  match i with
  | .ldDTVx x => s.getV x
  | _ => s.DT

/-- `ST` after the handler of `i`, before the tick (R185). `exec_ST` ties it to exec. -/
def handlerSound (i : Instr) (s : State) : Byte :=
  match i with
  | .ldSTVx x => s.getV x
  | _ => s.ST

/-- An update that makes no difference to a handler, and none to the state it finds, makes none to what it answers. -/
theorem exec_fixed (F : State → State) (hs : F s = s) (h : exec i s = .next t) (hF : exec i (F s) = .next (F t)) :
    t = F t := by
  rw [hs, h] at hF
  injection hF

/-- Putting `DT` to the value it has makes no difference to the handlers that do not reach it (R65), so they keep it. -/
theorem exec_DT (h : exec i s = .next t) : t.DT = handlerDelay i s := by
  obtain ⟨-, -, hreach, -⟩ := devicesAreReachedOnlyByTheirInstructions i s t h
  have kept (hi : i.mnemonic ∉ [.LD_Vx__DT, .LD_DT__Vx]) : t.DT = s.DT := by
    rw [exec_fixed (·.setDT s.DT) rfl h (hreach hi s.DT), setDT_DT]
  cases i with
  | ldVxDT x | ldDTVx x => injection h with h; rw [← h]; rfl
  | _ => exact kept (by simp [Instr.mnemonic])

/-- As `exec_DT`, for the sound timer, which no handler reads. -/
theorem exec_ST (h : exec i s = .next t) : t.ST = handlerSound i s := by
  obtain ⟨-, -, -, hreach⟩ := devicesAreReachedOnlyByTheirInstructions i s t h
  have kept (hi : i.mnemonic ≠ .LD_ST__Vx) : t.ST = s.ST := by
    rw [exec_fixed (·.setST s.ST) rfl h (hreach hi s.ST), setST_ST]
  cases i with
  | ldSTVx x => injection h with h; rw [← h]; rfl
  | _ => exact kept (by simp [Instr.mnemonic])

/-- Settles O15: the tick counts down what the handler left, and the handler found the timers and registers of before. -/
theorem bothTimersTickOncePerCompletedCycle : Obligations.BothTimersTickOncePerCompletedCycle := by
  intro s t hs h ht
  obtain ⟨u, hu, rfl⟩ := exec_of_completed hs h ht
  rw [nextInput_DT, nextInput_ST, tick_DT, tick_ST, countDown_toNat, countDown_toNat, exec_DT hu, exec_ST hu]
  cases decodeWord s.wordAtPc <;> exact ⟨rfl, rfl⟩

/-- A completed cycle of another instruction than `LD DT, Vx` takes one from `DT`. -/
theorem step_completed_DT (hs : s.status = .running) (h : step s = .next t) (ht : t.status = .running)
    (hi : ∀ x, decodeWord s.wordAtPc ≠ .ldDTVx x) : t.DT.toNat = s.DT.toNat - 1 := by
  obtain ⟨hd, -⟩ := bothTimersTickOncePerCompletedCycle s t hs h ht
  cases hw : decodeWord s.wordAtPc with
  | ldDTVx x => exact absurd hw (hi x)
  | _ => rw [hw] at hd; exact hd

/-! ## Many cycles -/

theorem run_succ (n : Nat) (h : step s = .next t) : Host.Core.run core (n + 1) s = Host.Core.run core n t := by
  simp only [Host.Core.run, Host.Check.core_step, h]

/-- A faulted core is where it was after any number of cycles (R106). -/
theorem run_faulted {c : Fault} (h : s.status = .faulted c) (n : Nat) : Host.Core.run core n s = .next s := by
  induction n with
  | zero => rfl
  | succ n ih => rw [run_succ n (step_faulted s c h), ih]

/-- A run that ends running began running: no cycle leaves a fault. -/
theorem running_of_run {n : Nat} (h : Host.Core.run core n s = .next t) (ht : t.status = .running) :
    s.status = .running := by
  cases hs : s.status with
  | running => rfl
  | faulted c =>
    rw [run_faulted hs] at h
    injection h with h
    rw [h, ht] at hs
    cases hs

/-- Settles O16, by induction on the number of cycles: the first takes one from `DT`, the rest of the run the others. -/
theorem delayTimerAfterManyCycles : Obligations.DelayTimerAfterManyCycles := by
  intro n
  induction n with
  | zero => intro s t h _ _; injection h with h; rw [h, Nat.sub_zero]
  | succ n ih =>
    intro s t h ht hno
    have hs := running_of_run h ht
    obtain ⟨u, hu⟩ := everyStepAnswersANextState s
    rw [run_succ n hu] at h
    have hfirst : u.DT.toNat = s.DT.toNat - 1 :=
      step_completed_DT hs hu (running_of_run h ht) fun x => hno 0 s x n.succ_pos rfl
    have hrest : t.DT.toNat = u.DT.toNat - n :=
      ih u t h ht fun k v x hk hv => hno (k + 1) v x (Nat.succ_lt_succ hk) ((run_succ k hu).trans hv)
    omega

/-! ## The inputs (R108) -/

/-- The random byte is out of reach of every handler but that of `RND`. -/
theorem rnd_outOfReach (r : Byte) (hi : i.mnemonic ≠ .RND_Vx__byte) : OutOfReach (fun s => { s with rnd := r }) i := by
  constructor <;> intros
  case rnd h _ => exact absurd h hi
  case popPc s => unfold popPc; split <;> rfl
  case pushPc s => unfold pushPc; split <;> rfl
  all_goals rfl

/-- No handler writes an input. -/
theorem effect_inputs (he : HandlerEffect s i t) : t.key = s.key ∧ t.rnd = s.rnd := by
  cases he <;> exact ⟨rfl, rfl⟩

/-- Settles O18: none of the things a handler can do writes an input, and an input out of its reach makes no difference; for
the keypad that is part of O19. -/
theorem onlyTheListedInstructionsReadTheInputs : Obligations.OnlyTheListedInstructionsReadTheInputs := by
  intro i s t h
  obtain ⟨hkey, hrnd⟩ := effect_inputs (effect_of_exec h)
  obtain ⟨-, hkeypad, -, -⟩ := devicesAreReachedOnlyByTheirInstructions i s t h
  exact ⟨hkey, hrnd, hkeypad, fun hi r => exec_comm (rnd_outOfReach r hi) h⟩

end Sys2Proof.Machine

/-! PROOFS. Control flow: jumps, skips, the call stack (`spec/41_control_flow.md` R120 to R127). The lemmas `exec_call_…` and
`exec_ret_…` say once what each side of the stack check answers; the statements about the stack cite them. -/

namespace Sys2Proof.Machine

variable {s : State}

/-! ## Jumps and skips (R121, R123 to R127) -/

/-- Settles O32: a jump writes `pc`, with an address that fits in its 16 bits. -/
theorem jumpsComplete : Obligations.JumpsComplete := fun s nnn =>
  ⟨⟨_, rfl, BitVec.toNat_setWidth_of_le (by omega), unchanged_setPc s _ (by simp)⟩,
   ⟨_, rfl, toNat_zext16_add _ nnn, unchanged_setPc s _ (by simp)⟩⟩

theorem skipIf_pc (c : Bool) (s : State) : (skipIf c s).pc = if c then s.pc + 2 else s.pc := by cases c <;> rfl

theorem skipIf_eq_pc (a b : Byte) (s : State) : (skipIf (a == b) s).pc = if a = b then s.pc + 2 else s.pc := by
  simp only [skipIf_pc, beq_iff_eq]

theorem skipIf_ne_pc (a b : Byte) (s : State) : (skipIf (a != b) s).pc = if a = b then s.pc else s.pc + 2 := by
  simp only [skipIf_pc, bne_iff_ne, ite_not]

/-- Settles O36: each skip is `skipIf` of the comparison of its operands. -/
theorem skipsComplete : Obligations.SkipsComplete := fun s x y kk =>
  have frame (c : Bool) : UnchangedButList [.pc] s (skipIf c s) := unchanged_skipIf c s (by simp)
  ⟨⟨_, rfl, skipIf_eq_pc (s.getV x) kk s, frame _⟩, ⟨_, rfl, skipIf_ne_pc (s.getV x) kk s, frame _⟩,
   ⟨_, rfl, skipIf_eq_pc (s.getV x) (s.getV y) s, frame _⟩, ⟨_, rfl, skipIf_ne_pc (s.getV x) (s.getV y) s, frame _⟩⟩

/-! ## What CALL and RET answer (R120, R122) -/

theorem exec_call_free (nnn : Addr) (h : s.sp.val < 16) : exec (.call nnn) s = .next
    { s with stack := s.stack.set s.sp.val s.pc h, sp := ⟨s.sp.val + 1, by omega⟩, pc := zext16 nnn } := by
  rw [exec, execCall, pushPc_free s h]
  rfl

theorem exec_call_full (nnn : Addr) (h : s.sp.val = 16) :
    exec (.call nnn) s = .next (takeFault .stackOverflow s) := by
  rw [exec, execCall, pushPc_full s h]
  rfl

/-- `k` is the slot of the last return address. -/
theorem exec_ret_nonempty (k : Fin 16) (h : s.sp.val = k.val + 1) :
    exec .ret s = .next { s with sp := k.castSucc, pc := s.stack[k] } := by
  rw [exec, execRet, popPc_some s (by omega), settle_ok]
  simp only [h, Nat.add_sub_cancel]
  rfl

theorem exec_ret_empty (h : s.sp.val = 0) : exec .ret s = .next (takeFault .stackUnderflow s) := by
  rw [exec, execRet, popPc_empty s h, settle_error]

/-- Settles O34: the fault is taken from the state the handler found. -/
theorem callStackFaults : Obligations.CallStackFaults :=
  ⟨fun _ nnn h => exec_call_full nnn h, fun _ h => exec_ret_empty h⟩

/-! ## The effect of CALL and RET, and a return to the caller -/

/-- A change of the call stack and `pc` is seen nowhere else. -/
theorem unchanged_callStack {W : Part → Prop} (s : State) (st : Vector Word 16) (p : Fin 17) (w : Word)
    (hst : ∀ k : Fin 16, ¬ W (.slot k) → st[k] = s.stack[k]) (hsp : W .sp) (hpc : W .pc) :
    UnchangedBut W s { s with stack := st, sp := p, pc := w } := by
  constructor <;> intros
  case slot k hk => exact hst k hk
  case sp h => exact absurd hsp h
  case pc h => exact absurd hpc h
  case input => exact ⟨rfl, rfl, rfl, rfl⟩
  all_goals rfl

/-- Settles O33: CALL sets the slot at `sp` and no other; RET writes no slot. -/
theorem callAndReturnComplete : Obligations.CallAndReturnComplete := by
  refine ⟨fun s nnn h => ?_, fun s k h => ?_⟩
  · refine ⟨_, exec_call_free nnn h, Vector.getElem_set_self h, rfl, BitVec.toNat_setWidth_of_le (by omega), ?_⟩
    refine unchanged_callStack s _ _ _ (fun k hk => ?_) (by simp) (by simp)
    have hne : s.sp.val ≠ k.val := fun e => hk (by simp [e])
    exact Vector.getElem_set_ne h k.isLt hne
  · exact ⟨_, exec_ret_nonempty k h, rfl, rfl, unchanged_callStack s s.stack _ _ (fun _ _ => rfl) (by simp) (by simp)⟩

/-- Settles O35: RET reads the slot that CALL wrote, which is the last one as `sp` is still one above it. -/
theorem returnRestoresTheCallersProgramCounter : Obligations.ReturnRestoresTheCallersProgramCounter := by
  intro s t u nnn h hcall hstack hsp
  rw [exec_call_free nnn h] at hcall
  injection hcall with hcall
  subst hcall
  have hlast : u.sp.val = s.sp.val + 1 := congrArg Fin.val hsp
  refine ⟨_, exec_ret_nonempty ⟨s.sp.val, h⟩ hlast, ?_, rfl⟩
  calc u.stack[s.sp.val] = (s.stack.set s.sp.val s.pc h)[s.sp.val] := by rw [hstack]
    _ = s.pc := Vector.getElem_set_self h

end Sys2Proof.Machine

/-! PROOFS. Loads, arithmetic, logic, shifts and `RND` (`spec/42_alu.md` R140 to R153; `spec/45_keypad_timers.md` R182 for the
read of the delay timer). The lemmas about flags and about `subtractInto` say once what a flag is as a number and what a
handler that writes the flag first leaves; the statements with VF as an operand (R153, decision D12) cite them. -/

namespace Sys2Proof

variable {w : Word}

/-! ## The encoding clauses (R140, R146) -/

/-- A mask that keeps the top nibble does not hide the family. -/
theorem opField_and {m : Word} (hm : opField m = BitVec.allOnes 4) : opField (w &&& m) = opField w := by
  rw [opField] at hm
  rw [opField, BitVec.extractLsb'_and, hm, BitVec.and_allOnes, opField]

theorem nField_and {m : Word} (hm : nField m = BitVec.allOnes 4) : nField (w &&& m) = nField w := by
  rw [nField] at hm
  rw [nField, BitVec.extractLsb'_and, hm, BitVec.and_allOnes, nField]

theorem decodeWord_6xkk (h : w &&& 0xF000 = 0x6000) : decodeWord w = .ldByte (xField w) (kkField w) := by
  have hop : opField w = 0x6 := by rw [← opField_and (m := 0xF000) rfl, h]; rfl
  simp [decodeWord, hop]

theorem decodeWord_8xy4 (h : w &&& 0xF00F = 0x8004) : decodeWord w = .addReg (xField w) (yField w) := by
  have hop : opField w = 0x8 := by rw [← opField_and (m := 0xF00F) rfl, h]; rfl
  have hn : nField w = 0x4 := by rw [← nField_and (m := 0xF00F) rfl, h]; rfl
  simp [decodeWord, decodeFamily8, hop, hn]

end Sys2Proof

namespace Sys2Proof.Machine

variable {s : State} {r : Reg}

/-! ## One destination register (R140 to R145, R151, R182) -/

theorem unchanged_setV_destination (s : State) (x : Reg) (v : Byte) : UnchangedButList [.reg x] s (s.setV x v) :=
  unchanged_setV s x v (by simp)

/-- Settles O23: the family alone selects it, and its handler writes the one register. -/
theorem loadByteCompletes : Obligations.LoadByteCompletes :=
  ⟨fun _ => decodeWord_6xkk, fun s x kk => ⟨_, rfl, getV_setV_same s x kk, unchanged_setV_destination s x kk⟩⟩

/-- Settles O24: both handlers write a value read from the state they find. -/
theorem registerMovesComplete : Obligations.RegisterMovesComplete := fun s x y =>
  ⟨⟨_, rfl, getV_setV_same s x (s.getV y), unchanged_setV_destination s x _⟩,
   ⟨_, rfl, getV_setV_same s x s.DT, unchanged_setV_destination s x _⟩⟩

/-- Settles O25: the mask acts on each bit of the random byte. -/
theorem randomByteCompletes : Obligations.RandomByteCompletes := by
  refine fun s x kk => ⟨_, rfl, fun j _ => ?_, unchanged_setV_destination s x _⟩
  rw [getV_setV_same, BitVec.getLsbD_and]

/-- Settles O26: the sum of bytes wraps, and no flag is written. -/
theorem addByteCompletes : Obligations.AddByteCompletes := by
  refine fun s x kk => ⟨_, rfl, ?_, unchanged_setV_destination s x _⟩
  rw [getV_setV_same, BitVec.toNat_add]

/-- Settles O27: each operation acts bit by bit, and no flag is written. -/
theorem logicCompletes : Obligations.LogicCompletes := by
  intro s x y
  have frame (v : Byte) : UnchangedButList [.reg x] s (s.setV x v) := unchanged_setV_destination s x v
  refine ⟨⟨_, rfl, fun j _ => ?_, frame _⟩, ⟨_, rfl, fun j _ => ?_, frame _⟩, ⟨_, rfl, fun j _ => ?_, frame _⟩⟩
  · rw [getV_setV_same, BitVec.getLsbD_or]
  · rw [getV_setV_same, BitVec.getLsbD_and]
  · rw [getV_setV_same, BitVec.getLsbD_xor]

/-! ## The flags as numbers (R22) -/

theorem toNat_flagByte (b : Bool) : (flagByte b).toNat = b.toNat := by cases b <;> rfl

theorem toNat_carryFlag (a b : Byte) : (carryFlag a b).toNat = if 255 < a.toNat + b.toNat then 1 else 0 := by
  rw [carryFlag, toNat_flagByte, Bool.toNat, Bool.cond_decide]

theorem toNat_greaterFlag (a b : Byte) : (greaterFlag a b).toNat = if b.toNat < a.toNat then 1 else 0 := by
  rw [greaterFlag, toNat_flagByte, Bool.toNat, Bool.cond_decide]

theorem toNat_lowBitFlag (a : Byte) : (lowBitFlag a).toNat = a.toNat % 2 := by
  rw [lowBitFlag, toNat_flagByte, ← BitVec.testBit_toNat, Nat.toNat_testBit, pow_zero, Nat.div_one]

theorem toNat_highBitFlag (a : Byte) : (highBitFlag a).toNat = a.toNat / 128 := by
  rw [highBitFlag, toNat_flagByte, ← BitVec.testBit_toNat, Nat.toNat_testBit]
  omega

/-! ## The result first, the flag last (R146) -/

/-- Settles O28: the flag, written last, does not touch the sum in another register. -/
theorem addRegistersCompletes : Obligations.AddRegistersCompletes := by
  refine ⟨fun _ => decodeWord_8xy4, fun s x y => ⟨_, rfl, fun hx => ?_, ?_, ?_⟩⟩
  · rw [getV_setV_other _ VF x _ hx.symm, getV_setV_same, BitVec.toNat_add]
  · rw [getV_setV_same, toNat_carryFlag]
  · exact (unchanged_setV s x _ (by simp)).trans (unchanged_setV _ VF _ (by simp))

/-! ## The flag first, the result last (R147 to R150, decision D12) -/

/-- The result reads every register but VF as it was before the flag. -/
theorem getV_setFlag_other (f : Byte) (h : r ≠ 15) : (s.setV VF f).getV r = s.getV r :=
  getV_setV_other s VF r f h.symm

/-- The flag stands after the result unless VF is the destination. -/
theorem getV_flag_after_result (f v : Byte) (h : r ≠ 15) : ((s.setV VF f).setV r v).getV 15 = f :=
  (getV_setV_other _ r 15 v h).trans (getV_setV_same s VF f)

theorem unchanged_flag_result (s : State) (x : Reg) (f v : Byte) :
    UnchangedButList [.reg x, .reg 15] s ((s.setV VF f).setV x v) :=
  (unchanged_setV s VF f (by simp)).trans (unchanged_setV _ x v (by simp))

theorem toNat_getV_subtractInto (a b c : Reg) (s : State) :
    ((subtractInto a b c s).getV a).toNat = ((s.getV b).toNat + 256 - (s.getV c).toNat) % 256 := by
  rw [subtractInto, getV_setV_same, BitVec.toNat_sub]
  congr 1
  omega

/-- A register less itself, whatever the flag left in it. -/
theorem toNat_getV_subtractInto_self (a b : Reg) (s : State) : ((subtractInto a b b s).getV a).toNat = 0 := by
  rw [subtractInto, getV_setV_same, BitVec.sub_self, BitVec.toNat_zero]

/-- Settles O29: the flag is `c`, and the subtraction finds it where an operand is VF. -/
theorem subtractCompletes : Obligations.SubtractCompletes := by
  intro s x y
  refine ⟨_, rfl, unchanged_flag_result s x _ _, ?_⟩
  intro c
  have hflag : (greaterFlag (s.getV x) (s.getV y)).toNat = c := toNat_greaterFlag _ _
  refine ⟨fun hx => ?_, fun hx hy => ?_, fun hx hy => ?_, fun hx hy => ?_, fun hx hy => ?_⟩
  · rw [subtractInto, getV_flag_after_result _ _ hx, hflag]
  · rw [toNat_getV_subtractInto, getV_setFlag_other _ hx, getV_setFlag_other _ hy]
  · subst hy
    rw [toNat_getV_subtractInto, getV_setFlag_other _ hx, getV_setV_same, hflag]
  · subst hx
    rw [toNat_getV_subtractInto, getV_setV_same, getV_setFlag_other _ hy, hflag]
  · subst hx hy
    exact toNat_getV_subtractInto_self _ _ _

/-- Settles O30: as O29, with the operands in the other order. -/
theorem reverseSubtractCompletes : Obligations.ReverseSubtractCompletes := by
  intro s x y
  refine ⟨_, rfl, unchanged_flag_result s x _ _, ?_⟩
  intro c
  have hflag : (greaterFlag (s.getV y) (s.getV x)).toNat = c := toNat_greaterFlag _ _
  refine ⟨fun hx => ?_, fun hx hy => ?_, fun hx hy => ?_, fun hx hy => ?_, fun hx hy => ?_⟩
  · rw [subtractInto, getV_flag_after_result _ _ hx, hflag]
  · rw [toNat_getV_subtractInto, getV_setFlag_other _ hx, getV_setFlag_other _ hy]
  · subst hy
    rw [toNat_getV_subtractInto, getV_setV_same, getV_setFlag_other _ hx, hflag]
  · subst hx
    rw [toNat_getV_subtractInto, getV_setV_same, getV_setFlag_other _ hy, hflag]
  · subst hx hy
    exact toNat_getV_subtractInto_self _ _ _

theorem toNat_shiftRight_one (a : Byte) : (a >>> 1).toNat = a.toNat / 2 := by
  rw [BitVec.toNat_ushiftRight, Nat.shiftRight_one]

theorem toNat_shiftLeft_one (a : Byte) : (a <<< 1).toNat = 2 * a.toNat % 256 := by
  rw [BitVec.toNat_shiftLeft, Nat.shiftLeft_eq, pow_one, Nat.mul_comm]

/-- Settles O31: with another register than VF the shift reads what was there before the flag; with VF it shifts the flag,
which is 0 or 1. -/
theorem shiftsComplete : Obligations.ShiftsComplete := by
  intro s x
  refine ⟨⟨_, rfl, unchanged_flag_result s x _ _, fun hx => ⟨?_, ?_⟩, fun hx => ?_⟩,
    ⟨_, rfl, unchanged_flag_result s x _ _, fun hx => ⟨?_, ?_⟩, fun hx => ?_⟩⟩
  · rw [getV_setV_same, getV_setFlag_other _ hx, toNat_shiftRight_one]
  · rw [getV_flag_after_result _ _ hx, toNat_lowBitFlag]
  · subst hx
    rw [getV_setV_same, getV_setV_same, toNat_shiftRight_one, toNat_lowBitFlag]
    omega
  · rw [getV_setV_same, getV_setFlag_other _ hx, toNat_shiftLeft_one]
  · rw [getV_flag_after_result _ _ hx, toNat_highBitFlag]
  · subst hx
    rw [getV_setV_same, getV_setV_same, toNat_shiftLeft_one, toNat_highBitFlag]
    omega

end Sys2Proof.Machine

/-! PROOFS. The index register and memory (`spec/43_index_memory.md` R160 to R165). The lemmas `exec_ldB_in`, `exec_stRegs_in`
and `exec_ldRegs_in` say once what the handlers that access memory answer when every byte is in range; the frames come from
`unchanged_writeList` and `unchanged_regs`. -/

namespace Sys2Proof.Machine

variable {s : State}

/-! ## The writes of `I` (R160 to R162) -/

theorem toNat_add_zext16 (a : Word) (v : Byte) : (a + zext16 v).toNat = (a.toNat + v.toNat) % 65536 := by
  rw [BitVec.toNat_add, BitVec.toNat_setWidth_of_le (by omega)]

/-- The last glyph address, 0x050 + 5 * 255, is far below 65536. -/
theorem toNat_glyphAddress (v : Byte) : (glyphAddress v).toNat = 0x050 + 5 * v.toNat := by
  rw [glyphAddress, BitVec.toNat_ofNat, Config.glyphBase]
  omega

/-- Settles O43: each handler is one write of `I`. -/
theorem indexWritesComplete : Obligations.IndexWritesComplete := by
  intro s x nnn
  have frame (w : Word) : UnchangedButList [.index] s (s.setI w) := unchanged_setI s w (by simp)
  exact ⟨⟨_, rfl, BitVec.toNat_setWidth_of_le (by omega), frame _⟩, ⟨_, rfl, toNat_add_zext16 s.I (s.getV x), frame _⟩,
    ⟨_, rfl, toNat_glyphAddress (s.getV x), frame _⟩⟩

/-! ## The decimal digits (R163) -/

theorem exec_ldB_in (x : Reg) (h : s.I.toNat ≤ 0xFFD) :
    exec (.ldB x) s = .next { s with mem := s.mem.writeList s.I.toNat (decimalDigits (s.getV x)) } := by
  rw [exec, execLdB, writeBytes_in _ s _ (show s.I.toNat + 3 ≤ 0x1000 by omega), settle_ok]

theorem read_writeList_of_getElem? (m : Memory) (a j : Nat) {vs : List Byte} {v : Byte} (h : vs[j]? = some v) :
    (m.writeList a vs).read (a + j) = v := by
  rw [read_writeList, if_pos (Nat.le_add_right ..), Nat.add_sub_cancel_left, h, Option.getD_some]

/-- A digit fits in its byte. -/
theorem toNat_read_digit (m : Memory) (a j d : Nat) {vs : List Byte} (h : vs[j]? = some (BitVec.ofNat 8 d)) (hd : d < 10) :
    ((m.writeList a vs).read (a + j)).toNat = d := by
  rw [read_writeList_of_getElem? m a j h, BitVec.toNat_ofNat, Nat.mod_eq_of_lt (by omega)]

/-- Settles O44: the handler is one list of three writes, the digits in their order. -/
theorem storeDecimalCompletes : Obligations.StoreDecimalCompletes := by
  intro s x h
  have hv : (s.getV x).toNat < 256 := (s.getV x).isLt
  refine ⟨_, exec_ldB_in x h, ?_, ?_, ?_, ?_⟩
  · exact toNat_read_digit s.mem s.I.toNat 0 _ rfl (by omega)
  · exact toNat_read_digit s.mem s.I.toNat 1 _ rfl (by omega)
  · exact toNat_read_digit s.mem s.I.toNat 2 _ rfl (by omega)
  · exact unchanged_writeList s _ _ fun j hj => ⟨j, hj, rfl⟩

/-! ## The register block (R164, R165) -/

/-- Settles O45: the handler is one list of `x + 1` writes, of V0 to Vx in their order. -/
theorem storeRegistersCompletes : Obligations.StoreRegistersCompletes := by
  intro s x h
  refine ⟨_, exec_stRegs_in x h, fun k hk => read_writeList_regsUpTo s.mem _ s.getV x k hk,
    unchanged_writeList s _ _ fun j hj => ?_⟩
  have hjx : j < x.val + 1 := by rwa [List.length_map, length_regsUpTo] at hj
  exact ⟨⟨j, by omega⟩, Nat.le_of_lt_succ hjx, rfl⟩

/-- Settles O46: the handler writes registers only, and none above Vx. -/
theorem loadRegistersCompletes : Obligations.LoadRegistersCompletes := by
  intro s x h
  obtain ⟨V, hexec, hV⟩ := exec_ldRegs_in x h
  refine ⟨_, hexec, fun k hk => (hV k).trans (if_pos hk), unchanged_regs s V fun k hk => ?_⟩
  have hkx : ¬ k ≤ x := fun hle => hk ⟨k, hle, rfl⟩
  exact (hV k).trans (if_neg hkx)

end Sys2Proof.Machine

/-! PROOFS. The framebuffer (`spec/44_display.md` R170, R171). `mem_spriteTargets_iff_spriteCell` says that the cells the
handler of `DRW` draws are the set `SpriteCell`; `drawRows_in` says what rows without a fault do, and
`exec_drw_resumes_at_row` where the handler stands once they are drawn. The second draw of a sprite is a second use of
`drawCompletes`, since a draw changes nothing that says where the sprite lands. -/

namespace Sys2Proof

/-! ## CLS (R170) -/

theorem decodeWord_0xx0 {w : Word} (h : w &&& 0xF00F = 0x0000) : decodeWord w = .cls := by
  have hop : opField w = 0x0 := by rw [← opField_and (m := 0xF00F) rfl, h]; rfl
  have hn : nField w = 0x0 := by rw [← nField_and (m := 0xF00F) rfl, h]; rfl
  simp [decodeWord, decodeFamily0, hop, hn]

end Sys2Proof

namespace Sys2Proof.Machine

variable {s t : State} {x y : Reg} {n : Nibble} {x0 y0 row left : Nat}

/-- Settles O50: the two dispatch keys select it, and its handler writes the framebuffer and nothing else. -/
theorem clearScreenCompletes : Obligations.ClearScreenCompletes :=
  ⟨fun _ => decodeWord_0xx0,
   fun s => ⟨_, rfl, fun i _ => pixel_clearPixels s i, unchanged_clearPixels s fun i => ⟨i, rfl⟩⟩⟩

/-! ## The cells of a sprite -/

/-- The cells drawn by `DRW` are those of the sprite, whatever VF holds meanwhile. -/
theorem mem_spriteTargets_iff_spriteCell (s : State) (x y : Reg) (n : Nibble) (v : Byte) (i : Nat) :
    i ∈ spriteTargets (s.setV VF v) ((s.getV x).toNat % 64) ((s.getV y).toNat % 32) 0 n.toNat ↔
      SpriteCell s x y n i := by
  simp [mem_spriteTargets, SpriteCell, spriteBit, pixelIndex]

/-- Where a sprite lands depends on its anchor and on memory from `I` on, and on nothing else. -/
theorem spriteCell_congr (hx : t.getV x = s.getV x) (hy : t.getV y = s.getV y) (hI : t.I = s.I)
    (hmem : ∀ a, t.mem.read a = s.mem.read a) (i : Nat) : SpriteCell t x y n i ↔ SpriteCell s x y n i := by
  simp only [SpriteCell, hx, hy, hI, hmem]

/-! ## A sprite that fits (R171) -/

/-- Rows within memory whose set bits are on the screen: their cells flip, and VF becomes 1 if one of them was lit. -/
theorem drawRows_in (hrows : ∀ r, r < left → s.I.toNat + r ≤ 0xFFF)
    (hcells : ∀ i ∈ spriteTargets s x0 y0 0 left, i < 2048) :
    ∃ t, drawRows x0 y0 0 left s = .ok t ∧
      (∀ i, t.pixel i = if i ∈ spriteTargets s x0 y0 0 left then !s.pixel i else s.pixel i) ∧
      (∀ r, r ≠ VF → t.getV r = s.getV r) ∧
      ((∃ i ∈ spriteTargets s x0 y0 0 left, s.pixel i = true) → t.getV VF = 1) ∧
      ((∀ i ∈ spriteTargets s x0 y0 0 left, s.pixel i = false) → t.getV VF = s.getV VF) := by
  rw [drawRows_eq x0 y0 left 0 s fun r _ hr => hrows r (by omega)]
  exact drawAll_in _ s (nodup_spriteTargets s x0 y0 left 0) hcells

/-- Registers and cells changed and nothing else. -/
theorem unchanged_regs_cells {W : Part → Prop} (h : t = { s with V := t.V, fb := t.fb })
    (hreg : ∀ r, ¬ W (.reg r) → t.getV r = s.getV r) (hcell : ∀ i, ¬ W (.cell i) → t.pixel i = s.pixel i) :
    UnchangedBut W s t := by
  constructor
  case reg => exact hreg
  case cell => exact fun i _ => hcell i
  all_goals
    rw [h]
    intros
    simp

/-- Settles O51: the handler draws the sprite's cells from the state with VF cleared (`drawRows_in`). -/
theorem drawCompletes : Obligations.DrawCompletes := by
  intro s x y n hfits
  have htarget := mem_spriteTargets_iff_spriteCell s x y n 0
  obtain ⟨t, hdraw, hpixel, hreg, hlit, hdark⟩ := drawRows_in (s := s.setV VF 0) hfits.rows fun i hi =>
    Nat.lt_succ_of_le (hfits.cells i ((htarget i).mp hi))
  simp only [htarget, setV_pixel] at hlit hdark
  have hkept : t = { s with V := t.V, fb := t.fb } := drawRows_ok _ _ _ _ (s.setV VF 0) t hdraw
  refine ⟨t, by rw [exec, execDrw, hdraw, settle_ok], fun i hi => ?_, hlit, fun h => ?_,
    unchanged_regs_cells hkept (fun r hr => ?_) fun i hi => ?_⟩
  · rw [hpixel, if_pos ((htarget i).mpr hi), setV_pixel]
  · exact (hdark h).trans (getV_setV_same s VF 0)
  · have hVF : r ≠ VF := fun e => hr (.inl (congrArg Part.reg e))
    exact (hreg r hVF).trans (getV_setV_other s VF r 0 hVF.symm)
  · rw [hpixel, if_neg fun hc => hi (.inr ⟨i, (htarget i).mp hc, rfl⟩), setV_pixel]

/-- Settles O53: the second draw finds the sprite where the first put it, so it flips each of its cells back, and the cells
it finds lit are those that were dark before the first. -/
theorem drawingTwiceRestoresTheFramebuffer : Obligations.DrawingTwiceRestoresTheFramebuffer := by
  intro s t x y n hx hy hfits hexec
  obtain ⟨t', hexec', hflip, -, -, hframe⟩ := drawCompletes s x y n hfits
  obtain rfl : t' = t := Host.Outcome.next.inj (hexec'.symm.trans hexec)
  have hcell : ∀ i, SpriteCell t' x y n i ↔ SpriteCell s x y n i :=
    spriteCell_congr (hframe.reg x (by simpa)) (hframe.reg y (by simpa)) (hframe.index (by simp))
      (fun a => hframe.byte a (by simp))
  have hfits' : SpriteFits t' x y n :=
    ⟨by rw [hframe.index (by simp)]; exact hfits.rows, fun i hi => hfits.cells i ((hcell i).mp hi)⟩
  obtain ⟨u, hexecu, hflipu, hlit, hdark, hframeu⟩ := drawCompletes t' x y n hfits'
  simp only [hcell] at hflipu hlit hdark hframeu
  refine ⟨u, hexecu, fun i hi => ?_, fun hu => ?_, fun ⟨i, hi, hpix⟩ =>
    hlit ⟨i, hi, by rw [hflip i hi, hpix, Bool.not_false]⟩⟩
  · by_cases hc : SpriteCell s x y n i
    · rw [hflipu i hc, hflip i hc, Bool.not_not]
    · rw [hframeu.cell i hi (by simpa), hframe.cell i hi (by simpa)]
  · by_contra hnone
    have hall : ∀ i, SpriteCell s x y n i → t'.pixel i = false := fun i hi => by
      rw [hflip i hi]
      simpa using fun hpix => hnone ⟨i, hi, hpix⟩
    exact absurd (hu.symm.trans (hdark hall)) (by decide)

/-! ## The first fault of a sprite (R171, R205) -/

/-- After earlier rows without a fault the handler goes on at row `row`, with memory and `I` as it found them. -/
theorem exec_drw_resumes_at_row (hrow : row < n.toNat) (hrows : ∀ r, r < row → s.I.toNat + r ≤ 0xFFF)
    (hcells : ∀ i ∈ spriteTargets (s.setV VF 0) ((s.getV x).toNat % 64) ((s.getV y).toNat % 32) 0 row, i < 2048) :
    ∃ t later, t.mem = s.mem ∧ t.I = s.I ∧ exec (.drw x y n) s =
      settle s (drawRows ((s.getV x).toNat % 64) ((s.getV y).toNat % 32) row (later + 1) t) := by
  obtain ⟨later, hn⟩ := Nat.exists_eq_add_of_lt hrow
  obtain ⟨t, hdraw, -⟩ := drawRows_in (s := s.setV VF 0) hrows hcells
  have ht := drawRows_ok _ _ _ _ (s.setV VF 0) t hdraw
  refine ⟨t, later, by rw [ht]; rfl, by rw [ht]; rfl, ?_⟩
  rw [exec, execDrw, hn, Nat.add_assoc, drawRows_add, hdraw, Nat.zero_add]

/-- In a row, the first set bit beyond the framebuffer is the fault. -/
theorem drawCols_out {b : Byte} {col : Nat} (s : State) (hcol : col < 8) (hbit : spriteBit b col = true)
    (hout : 2047 < pixelIndex x0 y0 row col)
    (hin : ∀ c, c < col → spriteBit b c = true → pixelIndex x0 y0 row c ≤ 2047) :
    drawCols x0 y0 row b (List.range 8) s = .error (.framebufferIndex (pixelIndex x0 y0 row col)) := by
  obtain ⟨d, hd⟩ := Nat.exists_eq_add_of_lt hcol
  have hsplit : List.range 8 = List.range col ++ col :: (List.range d).map fun j => col + (j + 1) := by
    rw [hd, Nat.add_assoc, List.range_add, List.range_succ_eq_map, List.map_cons, List.map_map, Nat.add_zero]
    rfl
  rw [hsplit, drawCols_eq, rowTargets, List.filter_append, List.filter_cons_of_pos hbit, List.map_append, List.map_cons]
  refine drawAll_out _ _ _ s (fun i hi => ?_) hout
  obtain ⟨c, hc, rfl⟩ := List.mem_map.mp hi
  obtain ⟨hlt, hset⟩ := List.mem_filter.mp hc
  exact Nat.lt_succ_of_le (hin c (List.mem_range.mp hlt) hset)

/-- Settles O52: the rows before `row` are drawn, and row `row` is read or drawn into its fault. -/
theorem drawFaultsAtTheFirstConditionMet : Obligations.DrawFaultsAtTheFirstConditionMet := by
  intro s x y n row bit idx hrow hrows hcells
  obtain ⟨t, later, hmem, hI, hexec⟩ := exec_drw_resumes_at_row (x := x) (y := y) hrow hrows fun i hi => by
    obtain ⟨r, c, -, hr, hc, hbit, rfl⟩ := (mem_spriteTargets ..).mp hi
    exact Nat.lt_succ_of_le (hcells r c (by omega) hc hbit)
  refine ⟨fun hout => ?_, fun col hin hcol hbit hout hfirst => ?_⟩
  · have hread : readByte t (t.I.toNat + row) = .error (.memAddress (s.I.toNat + row)) := by
      rw [hI, readByte_out t _ hout]
    simp only [hexec, drawRows, hread]
    rfl
  · have hread : readByte t (t.I.toNat + row) = .ok (s.mem.read (s.I.toNat + row)) := by
      rw [hI, readByte_in t _ hin, hmem]
    have hdraw : drawCols ((s.getV x).toNat % 64) ((s.getV y).toNat % 32) row (s.mem.read (s.I.toNat + row))
        (List.range 8) t = .error (.framebufferIndex (idx row col)) := drawCols_out t hcol hbit hout hfirst
    simp only [hexec, drawRows, hread, hdraw]
    rfl

end Sys2Proof.Machine

/-! PROOFS. The keypad and the timers (`spec/45_keypad_timers.md` R180, R181, R183 to R185). The lemmas `exec_skp_in`,
`exec_sknp_in` and `exec_ldVxK_…` say once what each side of a handler's case split answers; the statements cite them. -/

namespace Sys2Proof.Machine

variable {s : State} {x : Reg}

/-! ## SKP and SKNP (R180, R181) -/

theorem exec_skp_in (h : (s.getV x).toNat ≤ 15) :
    exec (.skp x) s = .next (skipIf (s.keyDown (s.getV x).toNat) s) := by
  rw [exec, execSkp, selectedKey_in s x h]
  rfl

theorem exec_sknp_in (h : (s.getV x).toNat ≤ 15) :
    exec (.sknp x) s = .next (skipIf (!s.keyDown (s.getV x).toNat) s) := by
  rw [exec, execSknp, selectedKey_in s x h]
  rfl

theorem skipIf_not_pc (c : Bool) (s : State) : (skipIf (!c) s).pc = if c then s.pc else s.pc + 2 := by cases c <;> rfl

/-- Settles O38: each key skip is `skipIf` of the level of the selected key, or of its negation. -/
theorem keySkipsComplete : Obligations.KeySkipsComplete := fun s _ h =>
  ⟨⟨_, exec_skp_in h, skipIf_pc _ s, unchanged_skipIf _ s (by simp)⟩,
   ⟨_, exec_sknp_in h, skipIf_not_pc _ s, unchanged_skipIf _ s (by simp)⟩⟩

/-- Settles O39: no key is selected, so neither handler gets to its skip. -/
theorem keySkipsFaultBeyondTheKeypad : Obligations.KeySkipsFaultBeyondTheKeypad := by
  intro s x h
  have hsel : selectedKey s x = .error (.keyIndex (s.getV x)) := selectedKey_out s x h
  constructor
  · rw [exec, execSkp, hsel]
    rfl
  · rw [exec, execSknp, hsel]
    rfl

/-! ## LD Vx, K (R183) -/

theorem exec_ldVxK_pressed (k : Fin 16) (h : lowestKey s = some k) :
    exec (.ldVxK x) s = .next (s.setV x (BitVec.ofNat 8 k.val)) := by
  rw [exec, execLdVxK, h]

theorem exec_ldVxK_none (h : s.key = 0) : exec (.ldVxK x) s = .next (s.setPc (s.pc - 2)) := by
  rw [exec, execLdVxK, lowestKey_none s h]

/-- Settles O40: `lowestKey` finds the least pressed key, whose index fits in a byte, or none. -/
theorem waitForKeyCompletes : Obligations.WaitForKeyCompletes := by
  refine ⟨fun s x k hk hdown hleast => ?_, fun s x h => ?_⟩
  · have hlow : lowestKey s = some ⟨k, hk⟩ := lowestKey_some s ⟨k, hk⟩ hdown fun j hj => hleast j hj
    refine ⟨_, exec_ldVxK_pressed _ hlow, ?_, unchanged_setV s x _ (by simp)⟩
    rw [getV_setV_same, BitVec.toNat_ofNat, Nat.mod_eq_of_lt (by omega)]
  · exact ⟨_, exec_ldVxK_none h, rfl, unchanged_setPc s _ (by simp)⟩

/-- Waiting in vain undoes the advance of `pc`: of the fetch only the opcode is left. -/
theorem exec_ldVxK_none_advance (w : Word) (h : s.key = 0) :
    exec (.ldVxK x) (s.advance w) = .next { s with opcode := w } := by
  have hpc : (s.advance w).pc - 2 = s.pc := BitVec.add_sub_cancel s.pc 2
  rw [exec_ldVxK_none (s := s.advance w) h, hpc]
  rfl

theorem unchanged_opcode {W : Part → Prop} (s : State) (w : Word) (h : W .opcode) :
    UnchangedBut W s { s with opcode := w } := by
  constructor <;> intros
  case opcode hno => exact absurd h hno
  case input => exact ⟨rfl, rfl, rfl, rfl⟩
  all_goals rfl

/-- Settles O41: the handler answers the state before the cycle but for the opcode; the tick and the next inputs follow. -/
theorem waitingForAKeyStaysInPlaceAndTicks : Obligations.WaitingForAKeyStaysInPlaceAndTicks := by
  intro s x ⟨hs, hp, hdec⟩ hkey
  have hexec : exec (decodeWord s.wordAtPc) (s.advance s.wordAtPc) = .next { s with opcode := s.wordAtPc } := by
    rw [hdec, exec_ldVxK_none_advance _ hkey]
  have hend := endCycle_running s { s with opcode := s.wordAtPc } hs
  refine ⟨_, hend ▸ step_of_exec hs hp hexec, ?_, ?_, ?_, ?_⟩
  · rw [nextInput_DT, tick_DT, countDown_toNat]
  · rw [nextInput_ST, tick_ST, countDown_toNat]
  · rw [nextInput_opcode, tick_opcode]
  · exact ((unchanged_opcode s _ (by simp)).trans (unchanged_tick _ (by simp) (by simp))).trans
      (unchanged_nextInput _ (by simp))

/-! ## The writes of the timers (R184, R185) -/

/-- Settles O42: each handler is one write of its timer; the tick is not part of the handler. -/
theorem timerWritesComplete : Obligations.TimerWritesComplete := fun s _ =>
  ⟨⟨_, rfl, rfl, unchanged_setDT s _ (by simp)⟩, ⟨_, rfl, rfl, unchanged_setST s _ (by simp)⟩⟩

end Sys2Proof.Machine

/-! PROOFS. The faults and their causes (`spec/60_exceptions.md` R200, R201). `FaultCause` says of each fault that a handler
can raise which instruction raises it, on which condition and with which value; `exec_faultCause` ties it to exec. -/

namespace Sys2Proof.Machine

variable {i : Instr} {s t u : State} {c d : Fault} {x y : Reg} {n : Nibble}

/-! ## The causes -/

/-- How many bytes of memory from `I` on the handler of `i` accesses (R163 to R165, R171). -/
def accessedBytes (i : Instr) : Nat :=
  match i with
  | .drw _ _ n => n.toNat
  | .ldB _ => 3
  | .stRegs x => x.val + 1
  | .ldRegs x => x.val + 1
  | _ => 0

/-- The state `s` that the handler of `i` finds gives it cause for the fault `c`. -/
inductive FaultCause (s : State) : Instr → Fault → Prop where
  /-- No slot is free (decision D5). -/
  | stackOverflow (nnn : Addr) (h : s.sp.val = 16) : FaultCause s (.call nnn) .stackOverflow
  /-- No return address is left (decision D6). -/
  | stackUnderflow (h : s.sp.val = 0) : FaultCause s .ret .stackUnderflow
  /-- The first address beyond memory from `I` on is one of those accessed (decision D8). -/
  | memAddress {i : Instr} (h : max s.I.toNat 0x1000 < s.I.toNat + accessedBytes i) :
      FaultCause s i (.memAddress (max s.I.toNat 0x1000))
  /-- A set bit of the sprite lands beyond the framebuffer (decision D7). -/
  | framebufferIndex {x y : Reg} {n : Nibble} {idx : Nat} (h : 2047 < idx) (hcell : SpriteCell s x y n idx) :
      FaultCause s (.drw x y n) (.framebufferIndex idx)
  /-- The register selects no key (decision D10). -/
  | keyIndex {i : Instr} {x : Reg} (hi : i = .skp x ∨ i = .sknp x) (h : 15 < (s.getV x).toNat) :
      FaultCause s i (.keyIndex (s.getV x))

/-! ## What a faulted answer rules out

A handler is given a running state, so an answer that keeps the status is not a faulted one. -/

/-- The fault a handler takes is the fault its answer records. -/
theorem fault_eq_of_exec (h : exec i s = .next t) (ht : t.status = .faulted c)
    (hd : exec i s = .next (takeFault d s)) : d = c := by
  rw [← Host.Outcome.next.inj (hd.symm.trans h), takeFault_status] at ht
  injection ht

theorem not_faulted_of_exec (hs : s.status = .running) (h : exec i s = .next t) (ht : t.status = .faulted c)
    (hu : exec i s = .next u) : u.status ≠ s.status := by
  rw [Host.Outcome.next.inj (hu.symm.trans h), ht, hs]
  exact Status.noConfusion

/-- The faulted answer of a handler that may fault is its error, as its own writes keep the status. -/
theorem eq_error_of_settle {r : Except Fault State} (hs : s.status = .running) (h : settle s r = .next t)
    (ht : t.status = .faulted c) (hok : r = .ok t → t.status = s.status) : r = .error c := by
  rcases settle_cases s t r h with hr | ⟨d, hr, rfl⟩
  · rw [hok hr, hs] at ht
    cases ht
  · injection ht with ht
    rw [hr, ht]

/-! ## Each handler that can raise a fault -/

theorem call_faultCause {nnn : Addr} (hs : s.status = .running) (h : exec (.call nnn) s = .next t)
    (ht : t.status = .faulted c) : FaultCause s (.call nnn) c := by
  by_cases hsp : s.sp.val < 16
  · exact (not_faulted_of_exec hs h ht (exec_call_free nnn hsp) rfl).elim
  · have hfull : s.sp.val = 16 := by omega
    exact fault_eq_of_exec h ht (exec_call_full nnn hfull) ▸ .stackOverflow nnn hfull

theorem ret_faultCause (hs : s.status = .running) (h : exec .ret s = .next t) (ht : t.status = .faulted c) :
    FaultCause s .ret c := by
  by_cases hsp : s.sp.val = 0
  · exact fault_eq_of_exec h ht (exec_ret_empty hsp) ▸ .stackUnderflow hsp
  · have hlast := exec_ret_nonempty (s := s) ⟨s.sp.val - 1, by omega⟩ (by simp only; omega)
    exact (not_faulted_of_exec hs h ht hlast rfl).elim

theorem skipIf_status (b : Bool) (s : State) : (skipIf b s).status = s.status := by rw [skipIf_eq_setPc, setPc_status]

/-- The two key skips. -/
theorem keySkip_faultCause (hi : i = .skp x ∨ i = .sknp x) (hs : s.status = .running) (h : exec i s = .next t)
    (ht : t.status = .faulted c) : FaultCause s i c := by
  by_cases hk : (s.getV x).toNat ≤ 15
  · have hskip : ∃ b, exec i s = .next (skipIf b s) := by
      rcases hi with rfl | rfl
      · exact ⟨_, exec_skp_in hk⟩
      · exact ⟨_, exec_sknp_in hk⟩
    obtain ⟨b, hb⟩ := hskip
    exact (not_faulted_of_exec hs h ht hb (skipIf_status b s)).elim
  · have hout : 15 < (s.getV x).toNat := Nat.lt_of_not_le hk
    obtain ⟨hskp, hsknp⟩ := keySkipsFaultBeyondTheKeypad s x hout
    have hfault : exec i s = .next (takeFault (.keyIndex (s.getV x)) s) := by
      rcases hi with rfl | rfl
      · exact hskp
      · exact hsknp
    exact fault_eq_of_exec h ht hfault ▸ .keyIndex hi hout

/-- A handler that stores, from `I` on, as many bytes as its instruction accesses. -/
theorem store_faultCause {vs : List Byte} (hlen : vs.length = accessedBytes i) (hs : s.status = .running)
    (h : settle s (writeBytes s s.I.toNat vs) = .next t) (ht : t.status = .faulted c) : FaultCause s i c := by
  have herr := eq_error_of_settle hs h ht fun hok => by rw [writeBytes_ok vs s t _ hok]
  obtain ⟨rfl, hlt⟩ := writeBytes_error vs s _ c herr
  exact .memAddress (hlen ▸ hlt)

theorem ldRegs_faultCause (hs : s.status = .running) (h : exec (.ldRegs x) s = .next t) (ht : t.status = .faulted c) :
    FaultCause s (.ldRegs x) c := by
  have herr := eq_error_of_settle hs h ht fun hok => by rw [loadRegs_ok _ s t _ hok]
  obtain ⟨rfl, hlt⟩ := loadRegs_upTo_error x s _ c herr
  exact .memAddress hlt

/-- The first sprite row beyond memory is at the first address beyond memory, as rows are one byte apart. -/
theorem first_row_out {a r : Nat} (hbefore : ∀ q, q < r → a + q ≤ 0xFFF) (hout : 0xFFF < a + r) :
    a + r = max a 0x1000 := by
  rcases r.eq_zero_or_pos with rfl | hpos
  · omega
  · have hprev := hbefore (r - 1) (by omega)
    omega

/-- What faults in a sprite is a row beyond memory or a cell of the sprite beyond the framebuffer. -/
theorem drw_faultCause (hs : s.status = .running) (h : exec (.drw x y n) s = .next t) (ht : t.status = .faulted c) :
    FaultCause s (.drw x y n) c := by
  have herr := eq_error_of_settle hs h ht fun hok => by rw [drawRows_ok _ _ _ _ _ t hok, setV_status]
  rcases drawRows_error _ _ _ _ _ c herr with
    ⟨r, -, hr, hbefore, hout, rfl⟩ | ⟨r, col, -, hr, hcol, hbit, rfl, hout⟩
  · rw [Nat.zero_add] at hr
    rw [setV_I] at hbefore hout ⊢
    have hfirst := first_row_out (fun q => hbefore q q.zero_le) hout
    have hlt : s.I.toNat + r < s.I.toNat + n.toNat := Nat.add_lt_add_left hr _
    rw [hfirst] at hlt ⊢
    exact .memAddress hlt
  · rw [Nat.zero_add] at hr
    exact .framebufferIndex hout ⟨r, col, hr, hcol, hbit, rfl⟩

/-- A handler that ends faulted had cause: of the instructions that can raise a fault (`HandlerEffect`), each raises its
own. -/
theorem exec_faultCause (hs : s.status = .running) (h : exec i s = .next t) (ht : t.status = .faulted c) :
    FaultCause s i c := by
  have hraiser : i.mnemonic ∈ faultRaisers := by
    obtain ⟨-, -, -, hstatus, -⟩ := onlyTheListedInstructionsWriteEachPart i s t h
    exact hstatus (not_faulted_of_exec hs h ht h)
  cases i with
  | call nnn => exact call_faultCause hs h ht
  | ret => exact ret_faultCause hs h ht
  | drw x y n => exact drw_faultCause hs h ht
  | skp x => exact keySkip_faultCause (.inl rfl) hs h ht
  | sknp x => exact keySkip_faultCause (.inr rfl) hs h ht
  | ldB x => exact store_faultCause (vs := decimalDigits (s.getV x)) rfl hs h ht
  | stRegs x => exact store_faultCause ((List.length_map _).trans (length_regsUpTo x)) hs h ht
  | ldRegs x => exact ldRegs_faultCause hs h ht
  | _ => simp [Instr.mnemonic] at hraiser

/-! ## The cycle -/

/-- A cycle that ends faulted took its fault in the fetch or from its handler. -/
theorem fault_of_step (hs : s.status = .running) (h : step s = .next t) (ht : t.status = .faulted c) :
    (0xFFE < s.pc.toNat ∧ c = .fetchAddress s.pc) ∨
    (s.pc.toNat ≤ 0xFFE ∧
      ∃ u, exec (decodeWord s.wordAtPc) (s.advance s.wordAtPc) = .next u ∧ u.status = .faulted c) := by
  rcases step_cases s t h with ⟨d, hd, -⟩ | ⟨-, hp, rfl⟩ | ⟨-, hp, u, hu, ⟨hr, rfl⟩ | ⟨d, hd, rfl⟩⟩
  · rw [hs] at hd; cases hd
  · injection ht with ht
    exact .inl ⟨hp, ht.symm⟩
  · rw [nextInput_status, tick_status, hr] at ht; cases ht
  · injection ht with ht
    exact .inr ⟨hp, u, hu, ht ▸ hd⟩

/-- Settles O14: a fault of the fetch has the fetch's condition, and one of the handler has a cause in the state before the
cycle, which differs from the one the handler finds in `pc` and `opcode` only. -/
theorem faultsComeOnlyFromTheListedCauses : Obligations.FaultsComeOnlyFromTheListedCauses := by
  intro s t c hs h ht
  rcases fault_of_step hs h ht with ⟨hp, rfl⟩ | ⟨hp, u, hu, hc⟩
  · exact ⟨hp, rfl⟩
  · have hcause := exec_faultCause ((advance_status s _).trans hs) hu hc
    generalize decodeWord s.wordAtPc = i at hcause ⊢
    cases hcause with
    | stackOverflow nnn hsp => exact ⟨hp, rfl, hsp⟩
    | stackUnderflow hsp => exact ⟨hp, rfl, hsp⟩
    | memAddress hlt => exact ⟨hp, rfl, hlt⟩
    | framebufferIndex hout hcell => exact ⟨hp, hout, _, _, _, rfl, hcell⟩
    | keyIndex hi hout => exact ⟨hp, hout, _, rfl, hi⟩

end Sys2Proof.Machine

/-! PROOFS. The host's load and the end of a run (`spec/70_reset_and_hazards.md` R221, R224), and the listed words of
`spec/95_test_vectors.md` 2.1. That a program has ended is read only from parts
that its own cycle leaves alone (`endedAt_of_unchanged`), so the frame of a cycle keeps the program ended. -/

namespace Sys2Proof

/-- Settles O9: eighteen words, each run through the decoder. -/
theorem wordsOfTheSpecDecodeAsListed : Obligations.WordsOfTheSpecDecodeAsListed := by
  unfold Obligations.WordsOfTheSpecDecodeAsListed
  decide

/-- A word of format `NNN` in family 0x1 is a jump (R74). -/
theorem decodeWord_1nnn {w : Word} {h : Nat} (hlt : h < 4096) (hw : w.toNat = 0x1000 + h) :
    decodeWord w = .jp (BitVec.ofNat 12 h) := by
  have hword : w = encode (.jp (BitVec.ofNat 12 h)) := by
    apply BitVec.eq_of_toNat_eq
    rw [hw, encode, wordNNN, BitVec.toNat_append, ← Nat.shiftLeft_add_eq_or_of_lt (BitVec.isLt _), BitVec.toNat_ofNat,
      Nat.mod_eq_of_lt hlt]
    rfl
  rw [hword, decodeWord_encode _ rfl]

end Sys2Proof

namespace Sys2Proof.Machine

variable {W : Part → Prop} {s t : State} {h : Nat} {bytes : List Byte}

/-! ## Loading a program (R221) -/

theorem load_empty (hlen : bytes.length = 0) : s.load bytes = .error .empty := if_pos hlen

theorem load_tooLong (hlen : 3584 < bytes.length) : s.load bytes = .error .tooLong := by
  rw [State.load, Config.maxImage, if_neg (by omega), if_pos hlen]

theorem load_fits (hpos : 1 ≤ bytes.length) (hlen : bytes.length ≤ 3584) :
    s.load bytes = .ok { s with mem := s.mem.writeList 0x200 bytes } := by
  rw [State.load, Config.maxImage, if_neg (by omega), if_neg (Nat.not_lt.mpr hlen)]
  rfl

/-- Settles O54: an image that fits is one list of writes from 0x200 on. -/
theorem loadCopiesTheImage : Obligations.LoadCopiesTheImage := by
  refine fun s bytes => ⟨fun hpos hlen => ⟨_, load_fits hpos hlen, fun j hj => ?_, ?_⟩, ?_⟩
  · exact read_writeList_of_getElem? s.mem 0x200 j (List.getElem?_eq_getElem hj)
  · exact unchanged_writeList s 0x200 bytes fun j hj => ⟨j, hj, rfl⟩
  · rintro (hempty | hlong)
    · exact ⟨_, load_empty hempty⟩
    · exact ⟨_, load_tooLong hlong⟩

/-! ## The end of a run (R224) -/

theorem wordAtPc_of_unchanged (hu : UnchangedBut W s t) (hpc : ¬ W .pc) (hbyte : ∀ a, ¬ W (.byte a)) :
    t.wordAtPc = s.wordAtPc := by
  rw [State.wordAtPc, hu.pc hpc, hu.byte _ (hbyte _), hu.byte _ (hbyte _), State.wordAtPc]

/-- That a program has ended reads the status, `pc` and memory, and nothing else. -/
theorem endedAt_of_unchanged (he : s.EndedAt h) (hu : UnchangedBut W s t) (hstatus : ¬ W .status) (hpc : ¬ W .pc)
    (hbyte : ∀ a, ¬ W (.byte a)) : t.EndedAt h where
  running := (hu.status hstatus).trans he.running
  here := (congrArg BitVec.toNat (hu.pc hpc)).trans he.here
  fetchable := he.fetchable
  selfJump := (congrArg BitVec.toNat (wordAtPc_of_unchanged hu hpc hbyte)).trans he.selfJump

/-- The jump of an ended program goes to its own address: of the fetch only the opcode is left. -/
theorem exec_of_endedAt (he : s.EndedAt h) :
    exec (decodeWord s.wordAtPc) (s.advance s.wordAtPc) = .next { s with opcode := s.wordAtPc } := by
  have hlt : h < 4096 := Nat.lt_succ_of_le (Nat.le_succ_of_le he.fetchable)
  have hpc : zext16 (BitVec.ofNat 12 h) = s.pc := by
    apply BitVec.eq_of_toNat_eq
    rw [he.here, BitVec.toNat_setWidth_of_le (by omega), BitVec.toNat_ofNat, Nat.mod_eq_of_lt hlt]
  rw [decodeWord_1nnn hlt he.selfJump, exec, execJp, hpc]
  rfl

/-- One cycle of an ended program: the jump, then the tick and the next inputs. -/
theorem step_of_endedAt (he : s.EndedAt h) :
    ∃ t, step s = .next t ∧ t.EndedAt h ∧ UnchangedButList [.delay, .sound, .opcode, .input] s t := by
  have hend := endCycle_running s { s with opcode := s.wordAtPc } he.running
  have hstep := hend ▸ step_of_exec he.running (he.here ▸ he.fetchable) (exec_of_endedAt he)
  have hframe : UnchangedButList [.delay, .sound, .opcode, .input] s
      (State.tick { s with opcode := s.wordAtPc }).nextInput :=
    ((unchanged_opcode s _ (by simp)).trans (unchanged_tick _ (by simp) (by simp))).trans
      (unchanged_nextInput _ (by simp))
  exact ⟨_, hstep, endedAt_of_unchanged he hframe (by simp) (by simp) (by simp), hframe⟩

/-- Settles O55, by induction on the number of cycles: the first leaves the program ended, with a frame that composes with
that of the rest of the run. -/
theorem endedProgramsStayEnded : Obligations.EndedProgramsStayEnded := by
  intro n h
  induction n with
  | zero => intro s t he hrun; injection hrun with hst; exact hst ▸ ⟨he, .refl _ s⟩
  | succ n ih =>
    intro s t he hrun
    obtain ⟨u, hstep, hue, hu⟩ := step_of_endedAt he
    rw [run_succ n hstep] at hrun
    obtain ⟨hte, ht⟩ := ih u t hue hrun
    exact ⟨hte, hu.trans ht⟩

end Sys2Proof.Machine
